-- ==== Sys2Proof/Word.lean ====
section
/-! DEFINITION. The widths the spec names: 32-bit command and STATUS words, 8-bit symbols and operands (R57, R59). -/

namespace Sys2Proof

/-- A command word or a STATUS word (R57, R71). -/
abbrev Word := BitVec 32

/-- A symbol, a channel value or a holding register (R26, R57). -/
abbrev Byte := BitVec 8

end Sys2Proof
end

