-- ==== Sys2Proof/Config.lean ====
section
/-! DEFINITION. The implementation parameters of R6. Every operation of the machine takes them as an argument
(`Params`), so that a statement can hold for every parameter set; `Config.params` is the machine's own set. -/

namespace Sys2Proof

/-- The parameters an integration chooses (R6). None of them is state and none changes while the block runs
(R39, R191). -/
structure Params where
  /-- F_CLK in hertz (R6). -/
  fClk : Nat
  /-- DIV: F_CLK cycles per transmitted bit, at least 1 (R6). -/
  div : Nat
  /-- CODE0: the symbol of logical bit 0, code ROM address 0 (R50). -/
  code0 : Byte
  /-- CODE1: the symbol of logical bit 1, code ROM address 1 (R50). -/
  code1 : Byte
  /-- LATCH_HOLD_CYCLES: F_CLK cycles of the latch hold (R141, R146). -/
  latchHoldCycles : Nat
  /-- T_RESET_MIN in seconds, as an exact rational (R6, R146). -/
  tResetMin : Rat
deriving DecidableEq, Repr

namespace Config

/-- CODE0 is OPEN: no value may be assumed (R7, U5; log 1). -/
opaque code0 : Byte

/-- CODE1 is OPEN: no value may be assumed (R7, U5; log 1). -/
opaque code1 : Byte

/-- T_RESET_MIN is OPEN: the source says only "on the order of tens of microseconds" (R6, U4; log 2). -/
opaque tResetMin : Rat

/-- IDLE, the trailing idle symbol (R6, R101). -/
def idle : Byte := 0x00

/-- SYMS_PER_BYTE (R6). -/
def symsPerByte : Nat := 9

/-- SYMS_PER_PIXEL (R6). -/
def symsPerPixel : Nat := 27

/-- CPOL: the serial clock idles high. The serial clock has no port, and no rule reads this (R6, U15). -/
def cpolIdleHigh : Bool := true

/-- The reference configuration: 24 MHz, clock / 5, a hold of 2400 cycles, and the OPEN values left open
(R6; log 3). -/
def params : Params where
  fClk := 24000000
  div := 5
  code0 := code0
  code1 := code1
  latchHoldCycles := 2400
  tResetMin := tResetMin

end Config

/-- The time `cycles` periods of F_CLK take, in seconds (R146, R193). -/
def Params.seconds (p : Params) (cycles : Nat) : Rat := cycles / p.fClk

end Sys2Proof
end

