-- ==== Sys2Proof/Syntax.lean ====
section
/-! DEFINITION. The instructions: one constructor per row of spec/opcode_table.json. Operands are 8-bit
values taken unchanged from their fields (R73), so every term is well formed. -/

namespace Sys2Proof

/-- The commands of the block's command port (R71). An illegal word is no command and has no constructor:
the decoder answers `none` for it, and the machine gives it the effect of R162. -/
inductive Instr where
  /-- WRITE_COLOR r, g, b: one LED's colour, operands in argument order Red, Green, Blue (R104, R56). -/
  | writeColor (r g b : Byte)
  /-- ENCODE_BYTE b: one byte onto the line (R103). -/
  | encodeByte (b : Byte)
  /-- LATCH: end the frame by holding the line low (R140). -/
  | latch
  /-- ARM: re-arm the serial function for the next frame (R147). -/
  | arm
deriving DecidableEq, Repr

end Sys2Proof
end

