-- ==== Sys2Proof/WellFormed.lean ====
section
/-! DEFINITION. Well-formedness. An instruction's operands are bytes, so there is nothing to check in it; what
the spec calls ill formed is a parameter set (R114, R146, treatment "refuse" of U5 and U9). -/

namespace Sys2Proof

/-- Every byte value is a legal operand, 0x00 and 0xFF included (R73): no instruction is ill formed. -/
def Instr.wf : Instr → Bool
  | .writeColor _ _ _ => true
  | .encodeByte _ => true
  | .latch => true
  | .arm => true

/-- The code byte with a run of `h` high bits followed by low bits (R114). -/
def highRun (h : Nat) : Byte := 0xFF#8 <<< (8 - h)

/-- The number of leading 1 bits of a symbol, the `h_x` of R114. -/
def leadingOnes (b : Byte) : Nat :=
  ([7, 6, 5, 4, 3, 2, 1, 0].takeWhile fun i => b.getLsbD i).length

/-- h0: the high run of the "0" symbol (R114). -/
def Params.h0 (p : Params) : Nat := leadingOnes p.code0

/-- h1: the high run of the "1" symbol (R114). -/
def Params.h1 (p : Params) : Nat := leadingOnes p.code1

/-- R114: each code is one run of high bits followed by low bits, and the "1" run is the longer. That
CODE0 and CODE1 differ follows. -/
def Params.codesOk (p : Params) : Bool :=
  p.code0 == highRun p.h0 && p.code1 == highRun p.h1 && decide (1 ≤ p.h0) && decide (p.h0 < p.h1) && decide (p.h1 ≤ 7)

/-- The counters can count: DIV and LATCH_HOLD_CYCLES are at least 1 (R6, R146). -/
def Params.countersOk (p : Params) : Bool := decide (1 ≤ p.div) && decide (1 ≤ p.latchHoldCycles)

/-- R146: LATCH_HOLD_CYCLES / F_CLK >= T_RESET_MIN, for a clock that runs. -/
def Params.holdOk (p : Params) : Bool :=
  decide (1 ≤ p.fClk) && decide (p.tResetMin ≤ p.seconds p.latchHoldCycles)

/-- A parameter set the spec accepts (R6, R114, R146); any other is refused as ill formed (U5, U9). -/
def Params.wf (p : Params) : Bool := p.countersOk && p.codesOk && p.holdOk

end Sys2Proof
end

