-- ==== Sys2Proof/Decode.lean ====
section
/-! DEFINITION. The decoder of R75, total on all 2^32 words; the encoder of R78; the opcode table of R71 as
rows of match and mask. -/

namespace Sys2Proof

/-- OP, bits 31:28 (R71). -/
def opField (w : Word) : BitVec 4 := w.extractLsb' 28 4

/-- RSV, bits 27:24 (R71). -/
def rsvField (w : Word) : BitVec 4 := w.extractLsb' 24 4

/-- D2, bits 23:16 (R71). -/
def d2Field (w : Word) : Byte := w.extractLsb' 16 8

/-- D1, bits 15:8 (R71). -/
def d1Field (w : Word) : Byte := w.extractLsb' 8 8

/-- D0, bits 7:0 (R71). -/
def d0Field (w : Word) : Byte := w.extractLsb' 0 8

/-- The decoder (R75): `none` is Illegal. The must-be-zero fields are part of the encoding (R72). -/
def decode (w : Word) : Option Instr :=
  if rsvField w ≠ 0 then none
  else if opField w = 0x1 then some (.writeColor (d2Field w) (d1Field w) (d0Field w))
  else if opField w = 0x2 then
    if d2Field w = 0 ∧ d1Field w = 0 then some (.encodeByte (d0Field w)) else none
  else if opField w = 0x3 then
    if d2Field w = 0 ∧ d1Field w = 0 ∧ d0Field w = 0 then some .latch else none
  else if opField w = 0x4 then
    if d2Field w = 0 ∧ d1Field w = 0 ∧ d0Field w = 0 then some .arm else none
  else none

/-- A command word from its five fields (R71). -/
def packWord (op : BitVec 4) (d2 d1 d0 : Byte) : Word := op ++ 0#4 ++ d2 ++ d1 ++ d0

/-- The encoder: the word of each instruction (R71, R78). -/
def encode : Instr → Word
  | .writeColor r g b => packWord 0x1 r g b
  | .encodeByte b => packWord 0x2 0 0 b
  | .latch => packWord 0x3 0 0 0
  | .arm => packWord 0x4 0 0 0

/-- One row of the encodings as match and mask (R71). -/
structure TableRow where
  pattern : Word
  mask : Word
deriving DecidableEq, Repr

/-- "a word w is the instruction when w & mask = match" (R71). -/
def TableRow.holds (r : TableRow) (w : Word) : Bool := w &&& r.mask == r.pattern

/-- The row of an instruction (R71, spec/opcode_table.json). -/
def tableRow : Instr → TableRow
  | .writeColor _ _ _ => ⟨0x10000000, 0xFF000000⟩
  | .encodeByte _ => ⟨0x20000000, 0xFFFFFF00⟩
  | .latch => ⟨0x30000000, 0xFFFFFFFF⟩
  | .arm => ⟨0x40000000, 0xFFFFFFFF⟩

/-- The four rows of the table (R71). -/
def opcodeTable : List TableRow :=
  [tableRow (.writeColor 0 0 0), tableRow (.encodeByte 0), tableRow .latch, tableRow .arm]

/-- The command word whose low `nbits` bits are those of `w`, every bit above zero. A command is one parallel
32-bit word, so no byte order applies (R56, R74; log 23). -/
def tableWord (nbits w : Nat) : Word := BitVec.ofNat 32 (w % 2 ^ nbits)

/-- What the decoder reads from an opcode-table word. -/
def decodeTableWord (nbits w : Nat) : Option Instr := decode (tableWord nbits w)

end Sys2Proof
end

