-- ==== Sys2Proof/Machine/State.lean ====
section
/-! DEFINITION. The state of the block, as plain data: the transaction-level state (R10), the sequencer and
latch controller, the serializer, and the host's coming moves on the ports. -/

namespace Sys2Proof.Machine

/-- The frame state machine (R20). -/
inductive FrameState where
  | idle
  | transmitting
deriving DecidableEq, Repr

/-- What drives the line (R21). -/
inductive PinMode where
  | serial
  | gpio
deriving DecidableEq, Repr

/-- The kind of the executing command (R24); ENC stands for ENCODE_BYTE and WRITE_COLOR. -/
inductive Op where
  | none
  | enc
  | latch
deriving DecidableEq, Repr

/-- The sub-state of an ENC command (R24, R106, R107). -/
inductive Phase where
  | send
  | drain
deriving DecidableEq, Repr

/-- The two error conditions the block detects (R161). -/
inductive ErrorKind where
  | illegalCommand
  | unarmedWrite
deriving DecidableEq, Repr

/-- The events of the transaction-level observation (R34). -/
inductive Event where
  /-- A symbol handed to the serializer while the pin is armed. -/
  | sym (b : Byte)
  /-- A symbol handed to the serializer while the pin is unarmed. -/
  | shadow (b : Byte)
  /-- The line driven low and held for `cycles` cycles. -/
  | hold (cycles : Nat)
  /-- The pin switched to SERIAL. -/
  | armed
  /-- An error recorded. -/
  | fault (k : ErrorKind)
deriving DecidableEq, Repr

/-- The transaction-level state: what a command changes in one atomic step at its acceptance (R10). -/
structure Arch where
  /-- R20. -/
  frame : FrameState
  /-- R21. -/
  pinMode : PinMode
  /-- R22. -/
  gpioLevel : Bool
  /-- R25, STATUS bit 8. -/
  errIllegal : Bool
  /-- R25, STATUS bit 9. -/
  errUnarmed : Bool
  /-- R34, oldest event first. -/
  obs : List Event
deriving DecidableEq, Repr

/-- The three 8-bit holding registers H[0], H[1], H[2] (R26). -/
structure Holding where
  h0 : Byte
  h1 : Byte
  h2 : Byte
deriving DecidableEq, Repr

/-- The sequencer and the latch controller's timer (R23 to R28). -/
structure Sequencer where
  /-- R23. -/
  busy : Bool
  /-- R24. -/
  op : Op
  /-- R24. -/
  phase : Phase
  /-- R26. -/
  h : Holding
  /-- n_sym, the length of the executing command's symbol sequence (R26). -/
  nSym : Nat
  /-- sym_idx, the next symbol to hand over (R27). -/
  symIdx : Nat
  /-- latch_cnt, the hold timer (R28). -/
  latchCnt : Nat
deriving DecidableEq, Repr

/-- The serializer: a one-entry transmit buffer in front of a shift register (R30). -/
structure Serializer where
  txbufFull : Bool
  txbuf : Byte
  /-- The shift register; bit 7 is on the output. -/
  sh : Byte
  /-- Bits of `sh` not yet fully shifted out, 0 to 8. -/
  shBits : Nat
  /-- Cycles the current bit has already been on the output, 0 to DIV-1. -/
  divCnt : Nat
deriving DecidableEq, Repr

/-- One move of the host on the input ports (R70; log 7). -/
inductive HostMove where
  /-- The values of rst, cmd_valid and cmd_data for exactly one cycle. A word the block does not take in
  that cycle is withdrawn. -/
  | drive (rst cmdValid : Bool) (cmdData : Word)
  /-- rst = 0, cmd_valid = 1 and the word held stable until the edge at which the block accepts it. -/
  | send (cmdData : Word)
deriving DecidableEq, Repr

/-- The whole state. -/
structure State where
  arch : Arch
  sequencer : Sequencer
  serializer : Serializer
  /-- The host's coming moves, the present cycle's first; none left means the host presents nothing. -/
  host : List HostMove
deriving DecidableEq, Repr

/-- Why the machine can stop. -/
inductive Fault where
  /-- Raised by the sequencer when a symbol past the 27th is asked for: H[i] exists for i = 0, 1, 2 only (R26).
  SAFE: the spec gives no such state a behaviour, and no run from a reset reaches one (log 11). -/
  | holdingIndexOutOfRange
deriving DecidableEq, Repr

/-- Why an instruction can be refused. -/
inductive Refusal where
  /-- An instruction the model gives no meaning. SAFE. Nothing raises it: all four rows have their meaning. -/
  | notModelled (mnemonic : String)
deriving DecidableEq, Repr

/-- The machine right after a block reset (R38). H[0..2], txbuf and sh are unspecified there (R40) and hold 0
by choice (log 4, log 5); the host has no move pending (log 7). -/
def State.reset : State where
  arch := { frame := .idle, pinMode := .serial, gpioLevel := false, errIllegal := false, errUnarmed := false, obs := [] }
  sequencer := { busy := false, op := .none, phase := .send, h := ⟨0, 0, 0⟩, nSym := 0, symIdx := 0, latchCnt := 0 }
  serializer := { txbufFull := false, txbuf := 0, sh := 0, shBits := 0, divCnt := 0 }
  host := []

end Sys2Proof.Machine
end

