-- ==== Sys2Proof/Machine/Ops.lean ====
section
/-! DEFINITION. The shared operations: the ports (R70), the observation and the error flags (R9, R161), the code
ROM (R50), the serializer's clock edge (R108), the block reset (R180), and the acceptance guard (R23, R70). -/

namespace Sys2Proof.Machine

/-- What an instruction or a step answers. -/
abbrev Result := Host.Outcome State Fault Refusal

/-- Go on with `f` from a next state; a stop stays as it is. -/
def andThen (r : Result) (f : State → Result) : Result :=
  match r with
  | .next t => f t
  | .fault e => .fault e
  | .refused e => .refused e

/-! ### The ports (R70) -/

/-- rst in the present cycle. -/
def State.rst (s : State) : Bool :=
  match s.host with
  | .drive r _ _ :: _ => r
  | .send _ :: _ => false
  | [] => false

/-- cmd_valid in the present cycle. -/
def State.cmdValid (s : State) : Bool :=
  match s.host with
  | .drive _ v _ :: _ => v
  | .send _ :: _ => true
  | [] => false

/-- cmd_data in the present cycle; 0 where the host presents nothing, and then no rule reads it. -/
def State.cmdData (s : State) : Word :=
  match s.host with
  | .drive _ _ w :: _ => w
  | .send w :: _ => w
  | [] => 0

/-- cmd_ready = not busy (R23, R70). -/
def State.cmdReady (s : State) : Bool := !s.sequencer.busy

/-- "A command is accepted at a rising edge of clk when cmd_valid = 1, cmd_ready = 1 and rst = 0 in the cycle
before the edge" (R70). -/
def State.accepts (s : State) : Bool := !s.rst && s.cmdValid && s.cmdReady

/-- The word accepted at the end of the present cycle, if any (R70). -/
def State.acceptedWord (s : State) : Option Word := if s.accepts then some s.cmdData else none

/-- The host's moves after a cycle in which no word was taken: one cycle's port values are over, a held word
stays (R70). -/
def hostWaits : List HostMove → List HostMove
  | .drive _ _ _ :: rest => rest
  | .send w :: rest => .send w :: rest
  | [] => []

/-! ### Observation and errors -/

/-- `emit(ev)` for a list of events, in order (R9, R34). -/
def Arch.emit (evs : List Event) (a : Arch) : Arch := { a with obs := a.obs ++ evs }

/-- `raise Error(k)`: set the sticky flag of k and record the Fault event; control goes on (R9, R161, R167).
This is the block's whole exception entry: nothing is saved and nothing is transferred (R167). -/
def Arch.raise (k : ErrorKind) (a : Arch) : Arch :=
  match k with
  | .illegalCommand => { a with errIllegal := true, obs := a.obs ++ [.fault .illegalCommand] }
  | .unarmedWrite => { a with errUnarmed := true, obs := a.obs ++ [.fault .unarmedWrite] }

/-! ### The code ROM -/

/-- `MemRead(bit, 1)`: the code ROM, addressed by a logical bit (R50). It has no write path (R51). -/
def codeRom (p : Params) (bit : Bool) : Byte := if bit then p.code1 else p.code0

/-! ### The serializer (R108) -/

/-- Step 1 of R108: shift. Each bit stays DIV cycles. -/
def Serializer.shift (p : Params) (z : Serializer) : Serializer :=
  if 0 < z.shBits then
    if z.divCnt = p.div - 1 then { z with sh := z.sh <<< 1, shBits := z.shBits - 1, divCnt := 0 }
    else { z with divCnt := z.divCnt + 1 }
  else { z with divCnt := 0 }

/-- Step 2 of R108: the shift register takes the buffered symbol the moment it is empty. -/
def Serializer.load (z : Serializer) : Serializer :=
  if z.shBits = 0 ∧ z.txbufFull = true then
    { z with sh := z.txbuf, shBits := 8, divCnt := 0, txbufFull := false }
  else z

/-- Step 3 of R108: `TxWrite(v)`, if the sequencer hands a symbol over in this cycle. -/
def Serializer.write (w : Option Byte) (z : Serializer) : Serializer :=
  match w with
  | some v => { z with txbuf := v, txbufFull := true }
  | none => z

/-- The serializer's clock edge (R108): shift, then load, then write. -/
def serializerEdge (p : Params) (w : Option Byte) (z : Serializer) : Serializer :=
  ((z.shift p).load).write w

/-! ### Acceptance and reset -/

/-- The block takes a command only when none is executing (R23, R70): with busy = 1 the word is not taken and
nothing changes (log 10). -/
def whenReady (effect : State → State) (s : State) : Result :=
  .next (if s.sequencer.busy then s else effect s)

/-- An accepted ENC command's start (R106). -/
def Sequencer.startEnc (h : Holding) (n : Nat) (q : Sequencer) : Sequencer :=
  { q with busy := true, op := .enc, phase := .send, h := h, nSym := n, symIdx := 0 }

/-- An accepted LATCH's start (R140, R28). -/
def Sequencer.startHold (n : Nat) (q : Sequencer) : Sequencer :=
  { q with busy := true, op := .latch, latchCnt := n }

/-- An accepted illegal word, transaction level (R162). -/
def Arch.illegal (a : Arch) : Arch := a.raise .illegalCommand

/-- An accepted illegal word: it is consumed, raises IllegalCommand and changes nothing else (R162). -/
def takeIllegal (s : State) : Result := whenReady (fun s => { s with arch := s.arch.illegal }) s

/-- The block reset: every field takes its reset value, whatever it held, and no command is accepted
(R180, R181). The host is outside the block, so its later moves stay (log 18). -/
def blockReset (s : State) : State := { State.reset with host := s.host.tail }

end Sys2Proof.Machine
end

