-- ==== Sys2Proof/Machine/Flags.lean ====
section
/-! DEFINITION. The flags and outputs computed from the state: TX_READY (R32), ser_out (R31), line (R33), the
STATUS word (R35) and the error codes (R161). The block has no arithmetic flags (R42). -/

namespace Sys2Proof.Machine

/-- TX_READY: the transmit buffer is empty (R32). -/
def State.txReady (s : State) : Bool := !s.serializer.txbufFull

/-- ser_out: bit 7 of the shift register while something is shifting, else low (R31). -/
def Serializer.serOut (z : Serializer) : Bool := if 0 < z.shBits then z.sh.getLsbD 7 else false

/-- The line (R33). -/
def State.line (s : State) : Bool :=
  match s.arch.pinMode with
  | .serial => s.serializer.serOut
  | .gpio => s.arch.gpioLevel

/-- An error's cause code (R161). -/
def ErrorKind.causeCode : ErrorKind → Nat
  | .illegalCommand => 1
  | .unarmedWrite => 2

/-- An error's STATUS bit (R161). -/
def ErrorKind.statusBit : ErrorKind → Nat
  | .illegalCommand => 8
  | .unarmedWrite => 9

/-- A word with one flag at bit `i`. -/
def flagAt (i : Nat) (b : Bool) : Word := if b then 1#32 <<< i else 0#32

/-- FRAME as a bit: 0 = IDLE, 1 = TRANSMITTING (R35). -/
def FrameState.bit : FrameState → Bool
  | .idle => false
  | .transmitting => true

/-- PIN_MODE as a bit: 0 = SERIAL, 1 = GPIO (R35). -/
def PinMode.bit : PinMode → Bool
  | .serial => false
  | .gpio => true

/-- The STATUS word (R35): reserved bits read 0. -/
def State.status (s : State) : Word :=
  flagAt 0 s.sequencer.busy ||| flagAt 1 s.arch.frame.bit ||| flagAt 2 s.arch.pinMode.bit |||
  flagAt 3 s.line ||| flagAt 4 s.txReady |||
  flagAt ErrorKind.illegalCommand.statusBit s.arch.errIllegal |||
  flagAt ErrorKind.unarmedWrite.statusBit s.arch.errUnarmed

end Sys2Proof.Machine
end

