-- ==== Sys2Proof/Machine/Operands.lean ====
section
/-! DEFINITION. From operands to symbols: the lookup (R100), the byte encoder (R101), the channel reorder (R102),
the sequencer's view of the same sequences (R106), and the bits of a symbol on the line (R53, R111). -/

namespace Sys2Proof.Machine

/-- `Code(bit)`, the bit-to-byte lookup (R100). -/
def code (p : Params) (bit : Bool) : Byte := codeRom p bit

/-- `EncSeq(b)`: one symbol per bit, most significant first, then the idle symbol (R101). -/
def encSeq (p : Params) (b : Byte) : List Byte :=
  [code p (b.getLsbD 7), code p (b.getLsbD 6), code p (b.getLsbD 5), code p (b.getLsbD 4),
   code p (b.getLsbD 3), code p (b.getLsbD 2), code p (b.getLsbD 1), code p (b.getLsbD 0), Config.idle]

/-- `PixelSeq(R, G, B)`: the channels in wire order Green, Red, Blue (R102, R55). -/
def pixelSeq (p : Params) (r g b : Byte) : List Byte := encSeq p g ++ encSeq p r ++ encSeq p b

/-- `H[i]`; there is no holding register but 0, 1 and 2 (R26). -/
def Holding.get? (h : Holding) : Nat → Option Byte
  | 0 => some h.h0
  | 1 => some h.h1
  | 2 => some h.h2
  | _ => none

/-- `SymAt(j)` (R106); `none` where H[j div 9] does not exist. -/
def symAt (p : Params) (h : Holding) (j : Nat) : Option Byte :=
  (h.get? (j / 9)).map fun byte =>
    if j % 9 < 8 then codeRom p (byte.getLsbD (7 - j % 9)) else Config.idle

/-- The line levels one symbol gives, cycle by cycle: bit 7 first, each bit for DIV cycles (R53, R111). -/
def symbolWave (p : Params) (b : Byte) : List Bool :=
  [7, 6, 5, 4, 3, 2, 1, 0].flatMap fun i => List.replicate p.div (b.getLsbD i)

/-- The line levels of a gapless symbol sequence (R111). -/
def wave (p : Params) (seq : List Byte) : List Bool := seq.flatMap (symbolWave p)

end Sys2Proof.Machine
end

