-- ==== Sys2Proof/Machine/FrameTransmitter.lean ====
section
/-! DEFINITION. WS2812_encoder: the commands ENCODE_BYTE (R103) and WRITE_COLOR (R104), at the acceptance edge
(R106). -/

namespace Sys2Proof.Machine

/-- The transaction-level effect of an ENC command with symbol sequence `seq` (R103, R104): armed, the frame
starts and the symbols reach the line; unarmed, UnarmedWrite is raised and they are Shadow symbols. -/
def Arch.recordSymbols (seq : List Byte) (a : Arch) : Arch :=
  match a.pinMode with
  | .serial => { a with frame := .transmitting }.emit (seq.map .sym)
  | .gpio => (a.raise .unarmedWrite).emit (seq.map .shadow)

/-- ENCODE_BYTE b at the acceptance edge (R103, R106): H[1] and H[2] are left as they are (R26). -/
def encodeByteAt (p : Params) (b : Byte) (s : State) : Result :=
  whenReady (fun s =>
    { s with
      arch := s.arch.recordSymbols (encSeq p b)
      sequencer := s.sequencer.startEnc { s.sequencer.h with h0 := b } Config.symsPerByte }) s

/-- WRITE_COLOR R, G, B at the acceptance edge (R104, R106): the channels are stored in wire order (R26). -/
def writeColorAt (p : Params) (r g b : Byte) (s : State) : Result :=
  whenReady (fun s =>
    { s with
      arch := s.arch.recordSymbols (pixelSeq p r g b)
      sequencer := s.sequencer.startEnc { h0 := g, h1 := r, h2 := b } Config.symsPerPixel }) s

/-- ENCODE_BYTE (R103). -/
def execEncodeByte (b : Byte) (s : State) : Result := encodeByteAt Config.params b s

/-- WRITE_COLOR (R104). -/
def execWriteColor (r g b : Byte) (s : State) : Result := writeColorAt Config.params r g b s

end Sys2Proof.Machine
end

