-- ==== Sys2Proof/Machine/LatchController.lean ====
section
/-! DEFINITION. latch_controller: LATCH (R140) and ARM (R147), at the acceptance edge. -/

namespace Sys2Proof.Machine

/-- LATCH, transaction level: pin to GPIO at level 0 in one edge, frame IDLE, Hold recorded (R140, R142). -/
def Arch.latch (p : Params) (a : Arch) : Arch :=
  { a with pinMode := .gpio, gpioLevel := false, frame := .idle }.emit [.hold p.latchHoldCycles]

/-- ARM, transaction level: pin to SERIAL, Armed recorded; frame and gpio_level unchanged (R147). -/
def Arch.arm (a : Arch) : Arch := { a with pinMode := .serial }.emit [.armed]

/-- LATCH at the acceptance edge: the same in every state, and the hold timer is loaded (R140, R145). -/
def latchAt (p : Params) (s : State) : Result :=
  whenReady (fun s =>
    { s with arch := s.arch.latch p, sequencer := s.sequencer.startHold p.latchHoldCycles }) s

/-- ARM at the acceptance edge, at which it also completes: busy stays 0 (R147, R148). -/
def armAt (s : State) : Result := whenReady (fun s => { s with arch := s.arch.arm }) s

/-- LATCH (R140). -/
def execLatch (s : State) : Result := latchAt Config.params s

/-- ARM (R147). -/
def execArm (s : State) : Result := armAt s

end Sys2Proof.Machine
end

