-- ==== Sys2Proof/Machine/Cycle.lean ====
section
/-! DEFINITION. One clock cycle of the whole block: reset (R180), acceptance (R70, R75), and the sequencer, hold
timer and serializer in a cycle without acceptance (R106, R107, R108, R141). -/

namespace Sys2Proof.Machine

/-- The sequencer and the hold timer at the edge of a cycle in which no word is accepted: SEND (R106), DRAIN
(R107), LATCH hold (R141). A busy sequencer with op NONE, which no run reaches, does nothing (log 13). -/
def sequencerEdge (txReady : Bool) (q : Sequencer) : Sequencer :=
  if q.busy then
    match q.op with
    | .none => q
    | .enc =>
      match q.phase with
      | .send =>
        if txReady then
          { q with symIdx := q.symIdx + 1, phase := if q.symIdx + 1 = q.nSym then .drain else .send }
        else q
      | .drain => if txReady then { q with busy := false } else q
    | .latch =>
      if q.latchCnt ≤ 1 then { q with latchCnt := 0, busy := false }
      else { q with latchCnt := q.latchCnt - 1 }
  else q

/-- Whether the sequencer hands a symbol over in this cycle: only in the SEND phase, and only when TX_READY = 1
(R106, R32). -/
def handsOver (txReady : Bool) (q : Sequencer) : Bool :=
  q.busy && decide (q.op = .enc) && decide (q.phase = .send) && txReady

/-- The edge of a cycle without acceptance, in which the sequencer writes `w` to the serializer `ser`. -/
def clockEdge (ser : Option Byte → Serializer → Serializer) (w : Option Byte) (s : State) : State :=
  { s with
    sequencer := sequencerEdge s.txReady s.sequencer
    serializer := ser w s.serializer
    host := hostWaits s.host }

/-- The byte handed to the serializer in a cycle without acceptance, if one is (R106). -/
def txWrite (p : Params) (s : State) : Option Byte :=
  if handsOver s.txReady s.sequencer then symAt p s.sequencer.h s.sequencer.symIdx else none

/-- A cycle without acceptance. A symbol that has no holding register is a fault of the model, and no run
reaches it (log 11). -/
def advance (p : Params) (ser : Option Byte → Serializer → Serializer) (s : State) : Result :=
  if handsOver s.txReady s.sequencer && (txWrite p s).isNone then .fault .holdingIndexOutOfRange
  else .next (clockEdge ser (txWrite p s) s)

/-- "On acceptance of w, the block executes the rule of decode(w)" (R75); `ex` gives the instructions their
meaning. -/
def takeWord (ex : Instr → State → Result) (w : Word) (s : State) : Result :=
  match decode w with
  | some i => ex i s
  | none => takeIllegal s

/-- What the edge of an accepting cycle does beside the command itself: the serializer goes on shifting, and
the host's word is taken (R108, R162). -/
def finishAccept (ser : Option Byte → Serializer → Serializer) (rest : List HostMove) (t : State) : Result :=
  .next { t with serializer := ser none t.serializer, host := rest }

/-- One clock cycle, for a given serializer and a given meaning of the instructions. A block reset wins over a
command (R166). The block's own serializer is `serializerEdge p` (R108); another is only used to say what
happens with a broken one (R117; log 12). -/
def stepVia (p : Params) (ser : Option Byte → Serializer → Serializer) (ex : Instr → State → Result)
    (s : State) : Result :=
  if s.rst then .next (blockReset s)
  else if s.accepts then andThen (takeWord ex s.cmdData s) (finishAccept ser s.host.tail)
  else advance p ser s

/-- The instructions' meanings for any parameter set. -/
def execAt (p : Params) (i : Instr) (s : State) : Result :=
  match i with
  | .writeColor r g b => writeColorAt p r g b s
  | .encodeByte b => encodeByteAt p b s
  | .latch => latchAt p s
  | .arm => armAt s

/-- One clock cycle of the block with any parameter set. -/
def stepAt (p : Params) (s : State) : Result := stepVia p (serializerEdge p) (execAt p) s

end Sys2Proof.Machine
end

