-- ==== Sys2Proof/Machine/Dispatch.lean ====
section
/-! DEFINITION. One arm per instruction: the effect of a command at its acceptance. -/

namespace Sys2Proof.Machine

def exec (i : Instr) (s : State) : Host.Outcome State Fault Refusal :=
  match i with
  | .writeColor r g b => Sys2Proof.Machine.execWriteColor r g b s
  | .encodeByte b => Sys2Proof.Machine.execEncodeByte b s
  | .latch => Sys2Proof.Machine.execLatch s
  | .arm => Sys2Proof.Machine.execArm s

end Sys2Proof.Machine
end

