-- ==== Sys2Proof/Machine/Step.lean ====
section
/-! DEFINITION. The machine's step: one clock cycle of the block in the reference configuration. -/

namespace Sys2Proof.Machine

/-- One clock cycle (R10, R70). -/
def step (s : State) : Host.Outcome State Fault Refusal :=
  stepVia Config.params (serializerEdge Config.params) exec s

/-- `s` with the host presenting the word and the block ready for it, so that the very next step accepts and
runs exactly it (log 9). The block fetches nothing (R37): the host presents each command. -/
def State.withFetchWord (s : State) (nbits w : Nat) : State :=
  { s with
    sequencer := { s.sequencer with busy := false }
    host := .send (tableWord nbits w) :: s.host }

end Sys2Proof.Machine
end

