-- ==== Sys2Proof/Machine/Assembler.lean ====
section
/-! DEFINITION. The assembler of R78 and the pseudo-instructions of R79: program text to command words. What the
text's form leaves open (white space, leading zeros, the number form of `.word`) is log 19. -/

namespace Sys2Proof.Machine

/-- One line of a command program (R78, R79), its operands as the numbers written. -/
inductive AsmStmt where
  | writeColor (r g b : Nat)
  | encodeByte (b : Nat)
  | latch
  | arm
  /-- `.word w`: the 32-bit word unchanged; the only way to write an illegal word. -/
  | word (w : Nat)
  /-- The pseudo-instruction PIXEL_OFF. -/
  | pixelOff
  /-- The pseudo-instruction SHOW. -/
  | showFrame
deriving DecidableEq, Repr

/-- The operands are in range: a byte each, 32 bits for `.word` (R78). -/
def AsmStmt.inRange : AsmStmt → Bool
  | .writeColor r g b => decide (r < 256) && decide (g < 256) && decide (b < 256)
  | .encodeByte b => decide (b < 256)
  | .latch => true
  | .arm => true
  | .word w => decide (w < 2 ^ 32)
  | .pixelOff => true
  | .showFrame => true

/-- The commands of a statement other than `.word`, the pseudo-instructions expanded (R79). -/
def AsmStmt.commands : AsmStmt → List Instr
  | .writeColor r g b => [.writeColor (BitVec.ofNat 8 r) (BitVec.ofNat 8 g) (BitVec.ofNat 8 b)]
  | .encodeByte b => [.encodeByte (BitVec.ofNat 8 b)]
  | .latch => [.latch]
  | .arm => [.arm]
  | .word _ => []
  | .pixelOff => [.writeColor 0 0 0]
  | .showFrame => [.latch, .arm]

/-- The words a statement in range assembles to. -/
def AsmStmt.words : AsmStmt → List Word
  | .word w => [BitVec.ofNat 32 w]
  | st => st.commands.map encode

/-- "An assembler refuses an operand out of range ... It never truncates" (R78): `none` is the refusal. -/
def AsmStmt.assemble (st : AsmStmt) : Option (List Word) := if st.inRange then some st.words else none

/-! ### Text -/

/-- White space inside a line (log 19). -/
def isBlank (c : Char) : Bool := c == ' ' || c == '\t' || c == '\r'

/-- Without white space at either end. -/
def strip (cs : List Char) : List Char := ((cs.dropWhile isBlank).reverse.dropWhile isBlank).reverse

/-- Split at every `sep`. -/
def splitAtChar (sep : Char) : List Char → List (List Char)
  | [] => [[]]
  | c :: cs =>
    if c = sep then [] :: splitAtChar sep cs
    else
      match splitAtChar sep cs with
      | [] => [[c]]
      | l :: ls => (c :: l) :: ls

/-- Lower case of a mnemonic's letter. -/
def lowerChar (c : Char) : Char := if 'A' ≤ c ∧ c ≤ 'Z' then Char.ofNat (c.toNat + 32) else c

/-- A decimal digit's value. -/
def decDigit (c : Char) : Option Nat := if '0' ≤ c ∧ c ≤ '9' then some (c.toNat - 48) else none

/-- A hex digit's value, in either case. -/
def hexDigit (c : Char) : Option Nat :=
  if '0' ≤ c ∧ c ≤ '9' then some (c.toNat - 48)
  else if 'a' ≤ c ∧ c ≤ 'f' then some (c.toNat - 87)
  else if 'A' ≤ c ∧ c ≤ 'F' then some (c.toNat - 55)
  else none

/-- The number a run of digits writes in `base`, continuing from `acc`. -/
def digitsFrom (digit : Char → Option Nat) (base : Nat) : Nat → List Char → Option Nat
  | acc, [] => some acc
  | acc, c :: cs =>
    match digit c with
    | some d => digitsFrom digit base (acc * base + d) cs
    | none => none

/-- A number in decimal, or 0x and one to `maxHex` hex digits (R78). -/
def number (maxHex : Nat) (cs : List Char) : Option Nat :=
  match cs with
  | [] => none
  | '0' :: 'x' :: ds =>
    if 1 ≤ ds.length ∧ ds.length ≤ maxHex then digitsFrom hexDigit 16 0 ds else none
  | ds => digitsFrom decDigit 10 0 ds

/-- An operand byte's number: at most two hex digits (R78). -/
def byteNumber (cs : List Char) : Option Nat := number 2 cs

/-- The operand of `.word`. R78 gives it no number form, so its form is the model's choice (log 19, DESIGN CHOICE):
decimal, or 0x and one to eight hex digits, as program P3 writes it, or 0x and two groups of four hex digits with one
'_' between them, as R162's worked example writes it. A '_' anywhere else is refused. -/
def wordNumber (cs : List Char) : Option Nat :=
  match cs with
  | ['0', 'x', a, b, c, d, '_', e, f, g, h] => number 8 ['0', 'x', a, b, c, d, e, f, g, h]
  | cs => number 8 cs

/-- The text after the mnemonic as operands separated by commas. -/
def operandsOf (cs : List Char) : List (List Char) :=
  if (strip cs).isEmpty then [] else (splitAtChar ',' cs).map strip

/-- A statement from its mnemonic, in lower case, and its operands; a missing or extra operand is refused (R78). -/
def parseStmt (mnemonic : List Char) (ops : List (List Char)) : Option AsmStmt :=
  if mnemonic = "write_color".toList then
    match ops with
    | [r, g, b] =>
      match byteNumber r, byteNumber g, byteNumber b with
      | some r, some g, some b => some (.writeColor r g b)
      | _, _, _ => none
    | _ => none
  else if mnemonic = "encode_byte".toList then
    match ops with
    | [b] => (byteNumber b).map .encodeByte
    | _ => none
  else if mnemonic = "latch".toList then (if ops.isEmpty then some .latch else none)
  else if mnemonic = "arm".toList then (if ops.isEmpty then some .arm else none)
  else if mnemonic = "pixel_off".toList then (if ops.isEmpty then some .pixelOff else none)
  else if mnemonic = "show".toList then (if ops.isEmpty then some .showFrame else none)
  else if mnemonic = ".word".toList then
    match ops with
    | [w] => (wordNumber w).map .word
    | _ => none
  else none

/-- One line's words: `;` starts a comment, and a line with nothing else gives none (R78). -/
def assembleLine (line : List Char) : Option (List Word) :=
  let text := strip (line.takeWhile (· ≠ ';'))
  if text.isEmpty then some []
  else
    let mnemonic := (text.takeWhile (! isBlank ·)).map lowerChar
    let rest := text.dropWhile (! isBlank ·)
    match parseStmt mnemonic (operandsOf rest) with
    | some st => st.assemble
    | none => none

/-- The words of a list of lines; one refused line refuses the program. -/
def assembleLines : List (List Char) → Option (List Word)
  | [] => some []
  | l :: ls =>
    match assembleLine l, assembleLines ls with
    | some ws, some rest => some (ws ++ rest)
    | _, _ => none

/-- A command program: text with one command per line (R78). -/
def assembleText (text : List Char) : Option (List Word) := assembleLines (splitAtChar '\n' text)

end Sys2Proof.Machine
end

