-- ==== Sys2Proof/Machine/Transaction.lean ====
section
/-! DEFINITION. The transaction level (R10): one atomic step per accepted word, over the transaction-level state
alone, built from the same effects the commands have in the machine. -/

namespace Sys2Proof.Machine

/-- What a command does to the transaction-level state (R103, R104, R140, R147). -/
def transactInstr (p : Params) : Instr → Arch → Arch
  | .writeColor r g b => Arch.recordSymbols (pixelSeq p r g b)
  | .encodeByte b => Arch.recordSymbols (encSeq p b)
  | .latch => Arch.latch p
  | .arm => Arch.arm

/-- What an accepted word does (R75, R162). -/
def transact (p : Params) (a : Arch) (w : Word) : Arch :=
  match decode w with
  | some i => transactInstr p i a
  | none => a.illegal

/-- The command is an ENC command (R24). -/
def isEnc : Instr → Bool
  | .writeColor _ _ _ => true
  | .encodeByte _ => true
  | .latch => false
  | .arm => false

/-- The symbol sequence of a command: EncSeq, PixelSeq, or empty (R61). -/
def instrSymbols (p : Params) : Instr → List Byte
  | .writeColor r g b => pixelSeq p r g b
  | .encodeByte b => encSeq p b
  | .latch => []
  | .arm => []

/-- `Seq(c)`: the symbols of an accepted word (R61). -/
def symbolsOf (p : Params) (w : Word) : List Byte :=
  match decode w with
  | some i => instrSymbols p i
  | none => []

/-- The payload of a Sym or Shadow event (R61, R110). -/
def Event.symbol? : Event → Option Byte
  | .sym b => some b
  | .shadow b => some b
  | .hold _ => none
  | .armed => none
  | .fault _ => none

/-- The symbols an observation records, in order (R61, R110). -/
def symbolsIn (obs : List Event) : List Byte := obs.filterMap Event.symbol?

end Sys2Proof.Machine
end

