-- ==== Sys2Proof/Safety.lean ====
section
/-! DEFINITION. What statements speak of: runs of cycles and what is seen along them, the invariant of the block,
and the spec's own notions of a fault-free run (R169), a finished run and a committed frame (R192), the host's
protocol (R184) and the gap formula (R185). -/

namespace Sys2Proof.Machine

/-! ### Runs -/

/-- `n` cycles of a step function, stopping at the first stop. -/
def cycles (stp : State → Result) : Nat → State → Result
  | 0, s => .next s
  | n + 1, s => andThen (stp s) (cycles stp n)

/-- What `see` finds in the states of the first `n` cycles, in order. -/
def traceOf {α : Type} (see : State → List α) (stp : State → Result) : Nat → State → List α
  | 0, _ => []
  | n + 1, s =>
    see s ++
      match stp s with
      | .next t => traceOf see stp n t
      | .fault _ => []
      | .refused _ => []

/-- The line's level in each of the first `n` cycles. -/
def lineTrace (p : Params) (n : Nat) (s : State) : List Bool := traceOf (fun u => [u.line]) (stepAt p) n s

/-- The words accepted in the first `n` cycles, in order. -/
def acceptedWords (p : Params) (n : Nat) (s : State) : List Word :=
  traceOf (fun u => u.acceptedWord.toList) (stepAt p) n s

/-- The byte the shift register takes from the buffer at the end of this cycle, if it takes one (R108 step 2). -/
def loadedByte (p : Params) (s : State) : Option Byte :=
  if s.rst = false ∧ (s.serializer.shift p).shBits = 0 ∧ s.serializer.txbufFull = true then some s.serializer.txbuf
  else none

/-- The bytes loaded into the shift register in the first `n` cycles, in order. -/
def loadedBytes (p : Params) (n : Nat) (s : State) : List Byte :=
  traceOf (fun u => (loadedByte p u).toList) (stepAt p) n s

/-- What the host can see in one cycle: cmd_ready, STATUS and the line (R70), and the observation (R34). -/
def State.outputs (s : State) : Bool × Word × Bool × List Event := (s.cmdReady, s.status, s.line, s.arch.obs)

/-- What the host can see in each of the first `n` cycles. -/
def outputTrace (p : Params) (n : Nat) (s : State) : List (Bool × Word × Bool × List Event) :=
  traceOf (fun u => [u.outputs]) (stepAt p) n s

/-! ### The host -/

/-- The move raises rst. -/
def HostMove.isReset : HostMove → Bool
  | .drive r _ _ => r
  | .send _ => false

/-- No move raises rst. -/
def resetFree (hs : List HostMove) : Bool := hs.all (! HostMove.isReset ·)

/-- One cycle in which the host presents nothing. -/
def HostMove.pause : HostMove := .drive false false 0

/-- The move presents a command: a word on the port in a cycle that can accept one. With rst = 1 no command is
accepted, so a word presented then is none (R70, R166; log 26, DEDUCED). -/
def HostMove.presentsCommand : HostMove → Bool
  | .drive r v _ => v && !r
  | .send _ => true

/-- "the host has no more commands" (R192): it may still pause or reset. -/
def noMoreCommands (hs : List HostMove) : Bool := hs.all (! HostMove.presentsCommand ·)

/-- A host that presents each word in the first cycle cmd_ready = 1. -/
def promptHost (ws : List Word) : List HostMove := ws.map .send

/-! ### Notions of the state -/

/-- An ENC command is executing (R24). -/
def State.encExecuting (s : State) : Bool := s.sequencer.busy && decide (s.sequencer.op = .enc)

/-- The serializer is empty: nothing buffered, nothing shifting (R192). -/
def Serializer.isEmpty (z : Serializer) : Bool := !z.txbufFull && decide (z.shBits = 0)

/-- No error is recorded (R169). -/
def Arch.faultFree (a : Arch) : Bool := !a.errIllegal && !a.errUnarmed

/-- Nothing is buffered and at most the rest of an IDLE is shifting: the serializer between two ENC commands
(R112, R113). -/
def Serializer.isQuiet (p : Params) (z : Serializer) : Bool :=
  !z.txbufFull && (decide (z.shBits = 0) || decide (z.sh = Config.idle)) && decide (z.shBits ≤ 8) && decide (z.divCnt < p.div)

/-- The cycles, the present one among them, for which the symbol in the shift register is still on the output. -/
def Serializer.cyclesLeft (p : Params) (z : Serializer) : Nat :=
  if z.shBits = 0 then 0 else (z.shBits - 1) * p.div + (p.div - z.divCnt)

/-- The end of a run: "the host has no more commands, busy = 0, and the serializer is empty" (R192). -/
def State.runOver (s : State) : Bool := noMoreCommands s.host && !s.sequencer.busy && s.serializer.isEmpty

/-- The command of the word accepted in this cycle, if the word is one (R75). -/
def State.acceptedInstr (s : State) : Option Instr := s.acceptedWord.bind decode

/-- An illegal word is accepted in this cycle (R162). -/
def State.acceptsIllegal (s : State) : Bool := s.accepts && (decode s.cmdData).isNone

/-- An ENC command is accepted in this cycle (R24). -/
def State.acceptsEnc (s : State) : Bool := s.acceptedInstr.any isEnc

/-- The errors an observation records (R161). -/
def faultsIn (obs : List Event) : List ErrorKind :=
  obs.filterMap fun ev =>
    match ev with
    | .fault k => some k
    | .sym _ => none
    | .shadow _ => none
    | .hold _ => none
    | .armed => none

/-- The fields for which R38 gives a reset value hold it; H[0..2], txbuf and sh are not among them (R40). -/
def HoldsResetValues (s : State) : Prop :=
  s.arch = { frame := .idle, pinMode := .serial, gpioLevel := false, errIllegal := false, errUnarmed := false, obs := [] } ∧
  s.sequencer.busy = false ∧ s.sequencer.op = .none ∧ s.sequencer.phase = .send ∧
  s.sequencer.symIdx = 0 ∧ s.sequencer.nSym = 0 ∧ s.sequencer.latchCnt = 0 ∧
  s.serializer.txbufFull = false ∧ s.serializer.shBits = 0 ∧ s.serializer.divCnt = 0 ∧
  s.status = 0x00000010 ∧ s.line = false

/-- A state just after reset, with unspecified contents `h`, `b`, `c` of H, txbuf and sh (R40), for a host. -/
def resetWith (h : Holding) (b c : Byte) (hs : List HostMove) : State :=
  { State.reset with
    sequencer := { State.reset.sequencer with h := h }
    serializer := { State.reset.serializer with txbuf := b, sh := c }
    host := hs }

/-- The reset state for a host with the given moves to come. -/
def startWith (hs : List HostMove) : State := { State.reset with host := hs }

/-- The serializer after one edge per element of `ws`, each with its write, if any (R108). -/
def serializerRun (p : Params) (ws : List (Option Byte)) (z : Serializer) : Serializer :=
  ws.foldl (fun z w => serializerEdge p w z) z

/-- The same state in another frame state (R20). -/
def State.withFrame (f : FrameState) (s : State) : State := { s with arch := { s.arch with frame := f } }

/-- The same state with another pin mode (R21). -/
def State.withPin (m : PinMode) (s : State) : State := { s with arch := { s.arch with pinMode := m } }

/-- Cycles from the acceptance of an ENC command with `n` symbols to its completion, from an idle serializer (R109). -/
def encBusyCycles (p : Params) (n : Nat) : Nat := (n - 1) * 8 * p.div + 3

/-- The cycles by which an ENC command accepted over the rest of an IDLE runs later than one accepted with the
serializer idle: its first symbol is in the buffer 3 cycles after the acceptance cycle began (R109), and is loaded
when the IDLE has shifted out (R108). -/
def idleDelay (p : Params) (z : Serializer) : Nat := z.cyclesLeft p - 3

/-- The two states agree in everything a rule can read: they may differ in a holding register the executing command
does not use, in an empty transmit buffer and in an empty shift register (R40, R26). -/
structure AgreeWhereRead (s s' : State) : Prop where
  arch : s.arch = s'.arch
  host : s.host = s'.host
  /-- The sequencer but for H. -/
  sequencer : { s.sequencer with h := s'.sequencer.h } = s'.sequencer
  /-- The holding registers whose symbols the executing ENC command sends. -/
  holding : s.encExecuting = true → ∀ i, 9 * i < s.sequencer.nSym → s.sequencer.h.get? i = s'.sequencer.h.get? i
  /-- The serializer but for txbuf and sh. -/
  serializer : { s.serializer with txbuf := s'.serializer.txbuf, sh := s'.serializer.sh } = s'.serializer
  txbuf : s.serializer.txbufFull = true → s.serializer.txbuf = s'.serializer.txbuf
  sh : 0 < s.serializer.shBits → s.serializer.sh = s'.serializer.sh

/-- The event is a hold long enough to commit a frame: n >= T_RESET_MIN x F_CLK (R192). -/
def Event.commits (p : Params) : Event → Bool
  | .hold n => decide (p.tResetMin * p.fClk ≤ n)
  | .sym _ => false
  | .shadow _ => false
  | .armed => false
  | .fault _ => false

/-- The host's protocol over accepted words, from an armed or an unarmed pin (R184, R186): no illegal word, and
no ENC command between a LATCH and the next ARM. -/
def keepsProtocol : Bool → List Word → Bool
  | _, [] => true
  | armed, w :: ws =>
    match decode w with
    | some (.writeColor _ _ _) => armed && keepsProtocol armed ws
    | some (.encodeByte _) => armed && keepsProtocol armed ws
    | some .latch => keepsProtocol false ws
    | some .arm => keepsProtocol true ws
    | none => false

/-- The low cycles the line stays low beyond the gapless stream when the next ENC command is accepted `k` cycles
later than it could be (R185). -/
def extraLow (p : Params) (k : Nat) : Nat := k + 4 - 8 * p.div

/-- The symbols of the executing ENC command not yet handed to the serializer (R106). -/
def pendingSymbols (p : Params) (s : State) : List Byte :=
  if s.encExecuting && decide (s.sequencer.phase = .send) then
    (List.range' s.sequencer.symIdx (s.sequencer.nSym - s.sequencer.symIdx)).filterMap (symAt p s.sequencer.h)
  else []

/-- The symbols recorded but not yet in the shift register: the buffered one, then those not handed over. -/
def inFlight (p : Params) (s : State) : List Byte :=
  (if s.serializer.txbufFull then [s.serializer.txbuf] else []) ++ pendingSymbols p s

/-! ### The invariant -/

/-- What every state that a run reaches satisfies: the ranges of 10_state.md, the sequencer's phases, the quiet
serializer between ENC commands (R112, R113), the pin (R22), and the flags against the observation (R161). -/
structure Inv (p : Params) (s : State) : Prop where
  /-- n_sym is 9 or 27 (R26), or its reset value 0 (R38). -/
  nSym_values : s.sequencer.nSym = 0 ∨ s.sequencer.nSym = 9 ∨ s.sequencer.nSym = 27
  /-- R27. -/
  symIdx_le : s.sequencer.symIdx ≤ s.sequencer.nSym
  /-- A busy block executes a command (R24). -/
  busy_op : s.sequencer.busy = true → s.sequencer.op ≠ .none
  /-- In SEND a symbol is left to hand over (R106). -/
  send_left : s.encExecuting = true → s.sequencer.phase = .send → s.sequencer.symIdx < s.sequencer.nSym
  /-- In DRAIN every symbol has been handed over, and the last one, the IDLE, is in the buffer or has just been
  loaded (R107, R109, R112). -/
  drain_done : s.encExecuting = true → s.sequencer.phase = .drain →
    s.sequencer.symIdx = s.sequencer.nSym ∧ 0 < s.sequencer.nSym ∧
      if s.serializer.txbufFull = true then s.serializer.txbuf = Config.idle
      else s.serializer.sh = Config.idle ∧ s.serializer.shBits = 8 ∧ s.serializer.divCnt = 0
  /-- R28. -/
  latchCnt_le : s.sequencer.latchCnt ≤ p.latchHoldCycles
  /-- During a hold the timer runs and the pin is a plain output (R140, R141). -/
  hold_runs : s.sequencer.busy = true → s.sequencer.op = .latch → 1 ≤ s.sequencer.latchCnt ∧ s.arch.pinMode = .gpio
  /-- R30. -/
  shBits_le : s.serializer.shBits ≤ 8
  /-- R30. -/
  divCnt_lt : s.serializer.divCnt < p.div
  /-- R108. -/
  divCnt_zero : s.serializer.shBits = 0 → s.serializer.divCnt = 0
  /-- Outside an ENC command nothing is buffered and only an IDLE can be shifting (R112, R113, R149). -/
  quiet : s.encExecuting = false →
    s.serializer.txbufFull = false ∧ (0 < s.serializer.shBits → s.serializer.sh = Config.idle)
  /-- R22: the value 1 is unreachable. -/
  gpio_low : s.arch.gpioLevel = false
  /-- A frame is open only while the pin is armed (R20, R140). -/
  frame_armed : s.arch.frame = .transmitting → s.arch.pinMode = .serial
  /-- R161, R162. -/
  illegal_recorded : s.arch.errIllegal = true ↔ Event.fault .illegalCommand ∈ s.arch.obs
  /-- R161, R163. -/
  unarmed_recorded : s.arch.errUnarmed = true ↔ Event.fault .unarmedWrite ∈ s.arch.obs

end Sys2Proof.Machine
end

