-- ==== Sys2Proof/Certificates/Slice0/Obligations.lean ====
section
/-! DEFINITION. The statements for the provers. Each docstring names the rule of spec/ it formalises. A statement
about `stepAt p` holds for every parameter set; `step` is `stepAt` at the reference configuration. -/

open Sys2Proof Sys2Proof.Machine

/-! ### Encoding -/

/-- R75: the decoder, with its fields written as arithmetic on the word's value. -/
def Obligations.DecoderReadsFields : Prop :=
  ∀ w : Word, decode w =
    if w.toNat / 2 ^ 24 % 16 ≠ 0 then none
    else if w.toNat / 2 ^ 28 = 1 then
      some (.writeColor (BitVec.ofNat 8 (w.toNat / 2 ^ 16)) (BitVec.ofNat 8 (w.toNat / 2 ^ 8)) (BitVec.ofNat 8 w.toNat))
    else if w.toNat / 2 ^ 28 = 2 then
      if w.toNat / 2 ^ 8 % 2 ^ 16 = 0 then some (.encodeByte (BitVec.ofNat 8 w.toNat)) else none
    else if w.toNat / 2 ^ 28 = 3 then if w.toNat % 2 ^ 24 = 0 then some .latch else none
    else if w.toNat / 2 ^ 28 = 4 then if w.toNat % 2 ^ 24 = 0 then some .arm else none
    else none

/-- R71: a word decodes to an instruction of a row exactly when it matches that row, no two rows match the same
word, and a word that no row matches is illegal. -/
def Obligations.OpcodeTableRowsDisjoint : Prop :=
  (∀ w i, decode w = some i → (tableRow i).holds w = true) ∧
  (∀ w, (∃ r ∈ opcodeTable, r.holds w = true) → ∃ i, decode w = some i) ∧
  (∀ w, ∀ r ∈ opcodeTable, ∀ r' ∈ opcodeTable, r.holds w = true → r'.holds w = true → r = r')

/-- R76: the illegal words, by class; the all-zero word is one; and an accepted one is consumed, sets ERR_ILLEGAL and
records the event. -/
def Obligations.IllegalWordClasses : Prop :=
  (∀ w : Word, decode w = none ↔
    (opField w = 0 ∨ 5 ≤ (opField w).toNat) ∨ rsvField w ≠ 0 ∨
    (opField w = 2 ∧ (d2Field w ≠ 0 ∨ d1Field w ≠ 0)) ∨
    ((opField w = 3 ∨ opField w = 4) ∧ (d2Field w ≠ 0 ∨ d1Field w ≠ 0 ∨ d0Field w ≠ 0))) ∧
  decode 0 = none ∧
  (∀ (p : Params) (s : State) (w : Word), s.acceptedWord = some w → decode w = none →
    ∃ t, stepAt p s = .next t ∧ t.host = s.host.tail ∧
      t.arch = { s.arch with errIllegal := true, obs := s.arch.obs ++ [.fault .illegalCommand] })

/-- Decoding an encoded instruction gives it back, for every operand (R75, R78). -/
def Obligations.DecodeEncodeRoundTrip : Prop := ∀ i : Instr, decode (encode i) = some i

/-- A word that decodes is the encoding of its instruction: no bit of it is ignored (R72). -/
def Obligations.EncodeDecodeRoundTrip : Prop := ∀ w i, decode w = some i → encode i = w

/-- R80: the worked encodings and the decoding examples. -/
def Obligations.WorkedEncodings : Prop :=
  encode (.writeColor 0x12 0x34 0x56) = 0x10123456 ∧ encode (.writeColor 0xFF 0x00 0x00) = 0x10FF0000 ∧
  encode (.writeColor 0x00 0xFF 0x00) = 0x1000FF00 ∧ encode (.writeColor 0x00 0x00 0xFF) = 0x100000FF ∧
  encode (.encodeByte 0x34) = 0x20000034 ∧ encode .latch = 0x30000000 ∧ encode .arm = 0x40000000 ∧
  decode 0x10123456 = some (.writeColor 0x12 0x34 0x56) ∧ decode 0x20000034 = some (.encodeByte 0x34) ∧
  decode 0x30000000 = some .latch ∧ decode 0x40000000 = some .arm ∧
  decode 0x20010034 = none ∧ decode 0x11000000 = none ∧ decode 0x00000000 = none ∧ decode 0x30000001 = none

/-- R78: the words of the assembler's operand forms, for operands in range; the refusal of an operand out of range;
and the refusal of a missing or extra operand: what the assembler reads has exactly its mnemonic's operands. -/
def Obligations.AssemblerNeverTruncates : Prop :=
  (∀ r g b : Nat, r < 256 → g < 256 → b < 256 →
    (AsmStmt.writeColor r g b).assemble = some [BitVec.ofNat 32 (0x10000000 + r * 65536 + g * 256 + b)]) ∧
  (∀ b : Nat, b < 256 → (AsmStmt.encodeByte b).assemble = some [BitVec.ofNat 32 (0x20000000 + b)]) ∧
  AsmStmt.latch.assemble = some [0x30000000] ∧ AsmStmt.arm.assemble = some [0x40000000] ∧
  (∀ w : Word, (AsmStmt.word w.toNat).assemble = some [w]) ∧
  (∀ r g b : Nat, 256 ≤ r ∨ 256 ≤ g ∨ 256 ≤ b → (AsmStmt.writeColor r g b).assemble = none) ∧
  (∀ b : Nat, 256 ≤ b → (AsmStmt.encodeByte b).assemble = none) ∧
  (∀ w : Nat, 2 ^ 32 ≤ w → (AsmStmt.word w).assemble = none) ∧
  (∀ (m : List Char) (ops : List (List Char)) (st : AsmStmt), parseStmt m ops = some st →
    match st with
    | .writeColor r g b => ∃ x y z, ops = [x, y, z] ∧ byteNumber x = some r ∧ byteNumber y = some g ∧ byteNumber z = some b
    | .encodeByte b => ∃ x, ops = [x] ∧ byteNumber x = some b
    | .word w => ∃ x, ops = [x] ∧ wordNumber x = some w
    | .latch => ops = []
    | .arm => ops = []
    | .pixelOff => ops = []
    | .showFrame => ops = [])

/-- R79: PIXEL_OFF and SHOW, as text and as commands; and there is no other pseudo-instruction: any other mnemonic the
assembler reads is one of the four commands or `.word`, and gives that command or that word alone. -/
def Obligations.PseudoInstructionExpansions : Prop :=
  assembleText "PIXEL_OFF".toList = some [0x10000000] ∧
  assembleText "SHOW".toList = some [0x30000000, 0x40000000] ∧
  AsmStmt.pixelOff.commands = [.writeColor 0 0 0] ∧ AsmStmt.showFrame.commands = [.latch, .arm] ∧
  (∀ (m : List Char) (ops : List (List Char)) (st : AsmStmt), parseStmt m ops = some st →
    (m = "pixel_off".toList ∧ st = .pixelOff) ∨ (m = "show".toList ∧ st = .showFrame) ∨
    (m = "write_color".toList ∧ ∃ r g b, st = .writeColor r g b) ∨ (m = "encode_byte".toList ∧ ∃ b, st = .encodeByte b) ∨
    (m = "latch".toList ∧ st = .latch) ∨ (m = "arm".toList ∧ st = .arm) ∨ (m = ".word".toList ∧ ∃ w, st = .word w)) ∧
  (∀ st : AsmStmt, st ≠ .showFrame → st.inRange = true → ∃ w, st.assemble = some [w])

/-! ### Reset -/

/-- R38: the reset values; the unspecified contents of H, txbuf and sh are not claimed. -/
def Obligations.ResetStateValues : Prop := HoldsResetValues State.reset ∧ State.reset.arch.obs = []

/-- R180: a block reset gives the reset values from any state at all, the state before the first reset included,
and accepts no command, even one presented in the same cycle. -/
def Obligations.BlockResetFromAnyState : Prop :=
  ∀ (p : Params) (s : State), s.rst = true →
    s.acceptedWord = none ∧ ∃ t, stepAt p s = .next t ∧ HoldsResetValues t

/-- R181: a block reset abandons the executing command. With no command after it, the line is low in every later
cycle, STATUS has its reset value, and nothing is recorded. That the host's later moves stay as they are is the model's
choice (log 18). -/
def Obligations.BlockResetAbandonsCommand : Prop :=
  (∀ (p : Params) (s : State) (n : Nat), s.rst = true → noMoreCommands s.host = true →
    ∃ t, cycles (stepAt p) (n + 1) s = .next t ∧ t.line = false ∧ t.status = 0x00000010 ∧ t.arch.obs = []) ∧
  (∀ (p : Params) (s : State), s.rst = true → ∃ t, stepAt p s = .next t ∧ t.host = s.host.tail)

/-- R40: what H, txbuf and sh hold is never observable before it is written. States that agree where a rule can read
show the same outputs, and every step from a state that meets the invariant keeps them in agreement; states just
after reset agree whatever H, txbuf and sh hold; so every run from reset, whatever the host does, shows the same
outputs for all contents. -/
def Obligations.UnspecifiedResetContentsUnobservable : Prop :=
  (∀ s s' : State, AgreeWhereRead s s' → s.outputs = s'.outputs) ∧
  (∀ (p : Params) (s s' t : State), Inv p s → AgreeWhereRead s s' → stepAt p s = .next t →
    ∃ t', stepAt p s' = .next t' ∧ AgreeWhereRead t t') ∧
  (∀ (h h' : Holding) (b b' c c' : Byte) (hs : List HostMove),
    AgreeWhereRead (resetWith h b c hs) (resetWith h' b' c' hs)) ∧
  (∀ (p : Params) (h h' : Holding) (b b' c c' : Byte) (hs : List HostMove) (n : Nat),
    outputTrace p n (resetWith h b c hs) = outputTrace p n (resetWith h' b' c' hs))

/-! ### The commands at their acceptance -/

/-- R103, R26, R106: ENCODE_BYTE completes its acceptance from every state that is not busy; the whole next
state, H[1], H[2], latch_cnt, gpio_level, the pin and the serializer being left as they are. -/
def Obligations.EncodeByteAccepted : Prop :=
  ∀ (b : Byte) (s : State), s.sequencer.busy = false →
    exec (.encodeByte b) s = .next { s with
      arch :=
        if s.arch.pinMode = .serial then
          { s.arch with
            frame := .transmitting
            obs := s.arch.obs ++ (encSeq Config.params b).map .sym }
        else
          { s.arch with
            errUnarmed := true
            obs := s.arch.obs ++ [.fault .unarmedWrite] ++ (encSeq Config.params b).map .shadow }
      sequencer := { s.sequencer with
        busy := true, op := .enc, phase := .send, nSym := 9, symIdx := 0
        h := ⟨b, s.sequencer.h.h1, s.sequencer.h.h2⟩ } }

/-- R104, R26, R106: WRITE_COLOR completes its acceptance from every state that is not busy; the whole next
state, with the channels held in wire order. -/
def Obligations.WriteColorAccepted : Prop :=
  ∀ (r g b : Byte) (s : State), s.sequencer.busy = false →
    exec (.writeColor r g b) s = .next { s with
      arch :=
        if s.arch.pinMode = .serial then
          { s.arch with
            frame := .transmitting
            obs := s.arch.obs ++ (encSeq Config.params g ++ encSeq Config.params r ++ encSeq Config.params b).map .sym }
        else
          { s.arch with
            errUnarmed := true
            obs := s.arch.obs ++ [.fault .unarmedWrite] ++
              (encSeq Config.params g ++ encSeq Config.params r ++ encSeq Config.params b).map .shadow }
      sequencer := { s.sequencer with
        busy := true, op := .enc, phase := .send, nSym := 27, symIdx := 0, h := ⟨g, r, b⟩ } }

/-- R140, R142, R145: LATCH does the same from every state that is not busy; the whole next state. -/
def Obligations.LatchAccepted : Prop :=
  ∀ s : State, s.sequencer.busy = false →
    exec .latch s = .next { s with
      arch := { s.arch with
        pinMode := .gpio, gpioLevel := false, frame := .idle, obs := s.arch.obs ++ [.hold 2400] }
      sequencer := { s.sequencer with busy := true, op := .latch, latchCnt := 2400 } }

/-- R147, R148: ARM completes at its acceptance from every state that is not busy; with the pin armed already it
changes no state but records Armed. -/
def Obligations.ArmAccepted : Prop :=
  ∀ s : State, s.sequencer.busy = false →
    exec .arm s = .next { s with arch := { s.arch with pinMode := .serial, obs := s.arch.obs ++ [.armed] } } ∧
    (s.arch.pinMode = .serial →
      exec .arm s = .next { s with arch := { s.arch with obs := s.arch.obs ++ [.armed] } })

/-- The frame of the four instructions: the serializer and the host's moves never change, an illegal-command flag
never changes, an error flag is never cleared, recorded events stay, only LATCH and ARM write the pin, only LATCH
writes gpio_level and latch_cnt, and LATCH and ARM leave H, n_sym, sym_idx and phase as they are (R20 to R28). -/
def Obligations.InstructionFrames : Prop :=
  ∀ (i : Instr) (s t : State), exec i s = .next t →
    t.serializer = s.serializer ∧ t.host = s.host ∧ t.arch.errIllegal = s.arch.errIllegal ∧
    (s.arch.errUnarmed = true → t.arch.errUnarmed = true) ∧ s.arch.obs <+: t.arch.obs ∧
    (i ≠ .latch → t.arch.gpioLevel = s.arch.gpioLevel ∧ t.sequencer.latchCnt = s.sequencer.latchCnt) ∧
    (isEnc i = true → t.arch.pinMode = s.arch.pinMode) ∧
    (isEnc i = false → t.arch.errUnarmed = s.arch.errUnarmed ∧ t.sequencer.h = s.sequencer.h ∧
      t.sequencer.nSym = s.sequencer.nSym ∧ t.sequencer.symIdx = s.sequencer.symIdx ∧
      t.sequencer.phase = s.sequencer.phase) ∧
    (i = .arm → t.arch.frame = s.arch.frame ∧ t.sequencer = s.sequencer)

/-- R23, R70: while a command is executing no word is taken, and a held word is still the host's next move after the
cycle. The first clause, that exec of an instruction in a busy block answers the state unchanged, is the model's choice
of what exec says there (log 10, DEDUCED from R70); step never asks it. -/
def Obligations.NoCommandTakenWhileBusy : Prop :=
  (∀ (i : Instr) (s : State), s.sequencer.busy = true → exec i s = .next s) ∧
  (∀ (p : Params) (s t : State), s.sequencer.busy = true → s.rst = false → stepAt p s = .next t →
    s.cmdReady = false ∧ s.acceptedWord = none ∧ t.arch = s.arch ∧
    (∀ w rest, s.host = .send w :: rest → t.host = s.host))

/-- A step in which the block accepts a word that decodes to i is exec of i, after which the serializer takes its
clock edge and the host's move is over (R70, R75, R108). The second clause is about withFetchWord, the model's own
placement of a command word: it is the model's choice (log 9, DESIGN CHOICE; the word's numbering, log 23). -/
def Obligations.StepRunsDecodedInstruction : Prop :=
  (∀ (i : Instr) (s : State), s.rst = false → s.cmdValid = true → s.sequencer.busy = false →
    decode s.cmdData = some i →
    ∃ t, exec i s = .next t ∧
      step s = .next { t with serializer := serializerEdge Config.params none s.serializer, host := s.host.tail }) ∧
  (∀ (nbits w : Nat) (i : Instr) (s : State), decodeTableWord nbits w = some i →
    ∃ t, exec i (s.withFetchWord nbits w) = .next t ∧
      step (s.withFetchWord nbits w) =
        .next { t with serializer := serializerEdge Config.params none s.serializer, host := s.host })

/-- R162: an accepted illegal word sets the flag, records the event and changes nothing else; the serializer goes
on with what it was shifting, and the word is consumed. The worked example: the word 0 sets STATUS bit 8. -/
def Obligations.IllegalWordEffect : Prop :=
  (∀ (p : Params) (s : State), s.acceptsIllegal = true →
    stepAt p s = .next
      { arch := { s.arch with errIllegal := true, obs := s.arch.obs ++ [.fault .illegalCommand] }
        sequencer := s.sequencer
        serializer := serializerEdge p none s.serializer
        host := s.host.tail }) ∧
  (∀ p : Params, ∃ t, stepAt p (startWith [.send 0]) = .next t ∧ t.status = 0x00000110)

/-! ### What only some events may change -/

/-- R25: err_illegal is set by an accepted illegal word, err_unarmed by an ENC command accepted in GPIO mode, by
nothing else, and only a block reset clears them. -/
def Obligations.ErrorFlagsSticky : Prop :=
  ∀ (p : Params) (s t : State), stepAt p s = .next t →
    (s.rst = false →
      t.arch.errIllegal = (s.arch.errIllegal || s.acceptsIllegal) ∧
      t.arch.errUnarmed = (s.arch.errUnarmed || (s.acceptsEnc && decide (s.arch.pinMode = .gpio)))) ∧
    (s.rst = true → t.arch.errIllegal = false ∧ t.arch.errUnarmed = false)

/-- R21: LATCH writes GPIO, ARM writes SERIAL, no other command and no other cycle writes the pin mode; its reset
value is SERIAL; and it selects what drives the line. -/
def Obligations.PinModeWrittenOnlyByLatchAndArm : Prop :=
  (∀ (p : Params) (s t : State), stepAt p s = .next t →
    t.arch.pinMode =
      if s.rst = true then .serial
      else if s.acceptedInstr = some .latch then .gpio
      else if s.acceptedInstr = some .arm then .serial
      else s.arch.pinMode) ∧
  State.reset.arch.pinMode = .serial ∧
  (∀ s : State, (s.arch.pinMode = .serial → s.line = s.serializer.serOut) ∧
    (s.arch.pinMode = .gpio → s.line = s.arch.gpioLevel))

/-- R20: the transitions of the frame state machine, its reset value, and that nothing but STATUS reads it: a run
with another frame state takes the same steps and shows the same line. -/
def Obligations.FrameTransitions : Prop :=
  (∀ (p : Params) (s t : State), stepAt p s = .next t → s.rst = false →
    t.arch.frame =
      if s.acceptsEnc = true ∧ s.arch.pinMode = .serial then .transmitting
      else if s.acceptedInstr = some .latch then .idle
      else s.arch.frame) ∧
  State.reset.arch.frame = .idle ∧
  (∀ (p : Params) (s t : State) (f : FrameState), stepAt p s = .next t →
    ∃ f', stepAt p (s.withFrame f) = .next (t.withFrame f')) ∧
  (∀ (s : State) (f : FrameState), (s.withFrame f).line = s.line)

/-- R22: gpio_level is the level of the line in GPIO mode, it is 0 at reset, LATCH writes 0 to it together with pin
mode GPIO, no other command and no other cycle writes it, and no run, whatever the host does, makes it 1. -/
def Obligations.GpioLevelNeverHigh : Prop :=
  State.reset.arch.gpioLevel = false ∧
  (∀ s : State, s.arch.pinMode = .gpio → s.line = s.arch.gpioLevel) ∧
  (∀ (p : Params) (s t : State), stepAt p s = .next t → s.rst = false → s.acceptedInstr ≠ some .latch →
    t.arch.gpioLevel = s.arch.gpioLevel) ∧
  (∀ s t : State, s.sequencer.busy = false → exec .latch s = .next t →
    t.arch.pinMode = .gpio ∧ t.arch.gpioLevel = false) ∧
  (∀ (p : Params) (hs : List HostMove) (n : Nat) (t : State),
    cycles (stepAt p) n (startWith hs) = .next t → t.arch.gpioLevel = false)

/-- R142: at LATCH's acceptance edge the pin goes to GPIO and to level 0 at once, so that the line is 0 in the very
next cycle; and no cycle of any run shows the pin in GPIO mode at a level other than 0. -/
def Obligations.PinSwitchHasNoGlitch : Prop :=
  (∀ (p : Params) (s t : State), s.acceptedInstr = some .latch → stepAt p s = .next t →
    t.arch.pinMode = .gpio ∧ t.arch.gpioLevel = false ∧ t.line = false) ∧
  (∀ (p : Params) (hs : List HostMove) (n : Nat) (t : State),
    cycles (stepAt p) n (startWith hs) = .next t → t.arch.pinMode = .gpio → t.line = false)

/-- R35: every bit of the STATUS word, the reserved ones reading 0, and its reset value. -/
def Obligations.StatusWordLayout : Prop :=
  (∀ (s : State) (i : Nat), s.status.getLsbD i =
    if i = 0 then s.sequencer.busy
    else if i = 1 then decide (s.arch.frame = .transmitting)
    else if i = 2 then decide (s.arch.pinMode = .gpio)
    else if i = 3 then s.line
    else if i = 4 then !s.serializer.txbufFull
    else if i = 8 then s.arch.errIllegal
    else if i = 9 then s.arch.errUnarmed
    else false) ∧
  State.reset.status = 0x00000010

/-- R166: at most one error per command, at its acceptance edge. A cycle that accepts no word records none; one that
accepts a word records at most one; an illegal word is never also an UnarmedWrite; and with rst = 1 no word is
accepted. -/
def Obligations.AtMostOneErrorPerCommand : Prop :=
  (∀ (p : Params) (s t : State), s.rst = false → stepAt p s = .next t →
    (s.acceptedWord = none → faultsIn t.arch.obs = faultsIn s.arch.obs) ∧
    (faultsIn t.arch.obs = faultsIn s.arch.obs ∨ ∃ k, faultsIn t.arch.obs = faultsIn s.arch.obs ++ [k]) ∧
    (s.acceptsIllegal = true →
      faultsIn t.arch.obs = faultsIn s.arch.obs ++ [.illegalCommand] ∧ t.arch.errUnarmed = s.arch.errUnarmed)) ∧
  (∀ s : State, s.rst = true → s.acceptedWord = none)

/-! ### Symbol sequences -/

/-- R100, R101: the lookup, and the nine elements of EncSeq. -/
def Obligations.EncSeqElements : Prop :=
  ∀ (p : Params) (b : Byte),
    code p false = p.code0 ∧ code p true = p.code1 ∧ (encSeq p b).length = 9 ∧
    (∀ k, k < 8 → (encSeq p b)[k]? = some (code p (b.getLsbD (7 - k)))) ∧ (encSeq p b)[8]? = some 0x00

/-- R102: PixelSeq is EncSeq(G), EncSeq(R), EncSeq(B); its element j is EncSeq(H[j div 9])[j mod 9] with
H = [G, R, B]; the idle symbols stand at 8, 17 and 26 and every other element is a data symbol. -/
def Obligations.PixelSeqWireOrder : Prop :=
  ∀ (p : Params) (r g b : Byte),
    pixelSeq p r g b = encSeq p g ++ encSeq p r ++ encSeq p b ∧ (pixelSeq p r g b).length = 27 ∧
    (∀ j, j < 27 → ∃ x, [g, r, b][j / 9]? = some x ∧ (pixelSeq p r g b)[j]? = (encSeq p x)[j % 9]?) ∧
    (∀ j, j < 27 → j % 9 = 8 → (pixelSeq p r g b)[j]? = some 0x00) ∧
    (∀ j, j < 27 → j % 9 ≠ 8 → ∃ bit, (pixelSeq p r g b)[j]? = some (code p bit))

/-- R106: SymAt(j), read from the holding registers after the acceptance, is element j of the command's sequence. -/
def Obligations.SymAtFollowsSequence : Prop :=
  ∀ (p : Params) (i : Instr) (s t : State) (j : Nat), isEnc i = true → s.sequencer.busy = false →
    execAt p i s = .next t → j < t.sequencer.nSym →
    t.sequencer.nSym = (instrSymbols p i).length ∧ symAt p t.sequencer.h j = (instrSymbols p i)[j]?

/-- R105: 0x00 and 0xFF give eight equal symbols; the same colour twice gives the same 27 symbols twice; and
WRITE_COLOR R, G, B records the same symbols as ENCODE_BYTE G, R, B, from every transaction-level state. -/
def Obligations.EncSequencesHaveNoSpecialCases : Prop :=
  ∀ (p : Params) (r g b : Byte) (a : Arch),
    encSeq p 0x00 = List.replicate 8 p.code0 ++ [0x00] ∧ encSeq p 0xFF = List.replicate 8 p.code1 ++ [0x00] ∧
    symbolsIn (transactInstr p (.writeColor r g b) (transactInstr p (.writeColor r g b) a)).obs =
      symbolsIn a.obs ++ pixelSeq p r g b ++ pixelSeq p r g b ∧
    symbolsIn (transactInstr p (.writeColor r g b) a).obs =
      symbolsIn (transactInstr p (.encodeByte b)
        (transactInstr p (.encodeByte r) (transactInstr p (.encodeByte g) a))).obs

/-! ### The cycle level -/

/-- R106: the SEND phase. With the buffer full the sequencer waits; with it empty it hands SymAt(sym_idx) over,
and goes to DRAIN with the last one. The transaction-level state does not change. -/
def Obligations.SendPhaseHandsOverWhenReady : Prop :=
  ∀ (p : Params) (s : State), s.rst = false → s.encExecuting = true → s.sequencer.phase = .send →
    (s.txReady = false →
      stepAt p s = .next { s with
        serializer := serializerEdge p none s.serializer, host := hostWaits s.host }) ∧
    (∀ v, s.txReady = true → symAt p s.sequencer.h s.sequencer.symIdx = some v →
      stepAt p s = .next { s with
        sequencer := { s.sequencer with
          symIdx := s.sequencer.symIdx + 1
          phase := if s.sequencer.symIdx + 1 = s.sequencer.nSym then .drain else .send }
        serializer := serializerEdge p (some v) s.serializer
        host := hostWaits s.host })

/-- R107: the DRAIN phase. The command completes at the first edge at which the buffer is empty. -/
def Obligations.DrainPhaseCompletesWhenReady : Prop :=
  ∀ (p : Params) (s : State), s.rst = false → s.encExecuting = true → s.sequencer.phase = .drain →
    stepAt p s = .next { s with
      sequencer := { s.sequencer with busy := !s.txReady }
      serializer := serializerEdge p none s.serializer
      host := hostWaits s.host }

/-- R108: the serializer's edge, case by case, and that the sequencer writes only a ready serializer. Where a symbol is
written to a full buffer, which R108 calls illegal and which the last clause excludes from the block, the first two
cases say what the model's serializer does, overwrite it: the model's choice (log 14). -/
def Obligations.SerializerEdgeCases : Prop :=
  (∀ (p : Params) (z : Serializer) (v : Byte) (w : Option Byte), z.divCnt < p.div →
    (0 < z.shBits → z.divCnt + 1 < p.div →
      serializerEdge p w z = ({ z with divCnt := z.divCnt + 1 } : Serializer).write w) ∧
    (1 < z.shBits → z.divCnt + 1 = p.div →
      serializerEdge p w z = ({ z with sh := z.sh <<< 1, shBits := z.shBits - 1, divCnt := 0 } : Serializer).write w) ∧
    ((z.shBits = 0 ∨ z.shBits = 1 ∧ z.divCnt + 1 = p.div) → z.txbufFull = true →
      serializerEdge p none z = { txbufFull := false, txbuf := z.txbuf, sh := z.txbuf, shBits := 8, divCnt := 0 }) ∧
    (z.shBits = 1 → z.divCnt + 1 = p.div → z.txbufFull = false →
      serializerEdge p w z = ({ z with sh := z.sh <<< 1, shBits := 0, divCnt := 0 } : Serializer).write w) ∧
    (z.shBits = 0 → z.txbufFull = false → serializerEdge p w z = ({ z with divCnt := 0 } : Serializer).write w) ∧
    z.write (some v) = { z with txbuf := v, txbufFull := true } ∧ z.write none = z) ∧
  (∀ (p : Params) (s : State) (v : Byte), txWrite p s = some v → s.txReady = true)

/-- R53, R111: a symbol just loaded is on the output most significant bit first, each bit for DIV cycles, whatever
is written to the buffer meanwhile. -/
def Obligations.LoadedSymbolLeavesMsbFirst : Prop :=
  ∀ (p : Params) (z : Serializer) (ws : List (Option Byte)), 1 ≤ p.div → z.shBits = 8 → z.divCnt = 0 →
    ws.length < 8 * p.div →
    0 < (serializerRun p ws z).shBits ∧ (serializerRun p ws z).serOut = z.sh.getLsbD (7 - ws.length / p.div)

/-- R114, R115: under a well-formed code table the codes differ, a data symbol for bit x is high for h_x·DIV
cycles and then low for (8 - h_x)·DIV cycles, and the IDLE is low for 8·DIV cycles. -/
def Obligations.DataSymbolIsOneHighPulse : Prop :=
  ∀ p : Params, p.codesOk = true →
    p.code0 ≠ p.code1 ∧ 1 ≤ p.h0 ∧ p.h0 < p.h1 ∧ p.h1 ≤ 7 ∧
    symbolWave p (code p false) = List.replicate (p.h0 * p.div) true ++ List.replicate ((8 - p.h0) * p.div) false ∧
    symbolWave p (code p true) = List.replicate (p.h1 * p.div) true ++ List.replicate ((8 - p.h1) * p.div) false ∧
    symbolWave p Config.idle = List.replicate (8 * p.div) false

/-- R115: inside one command the line is never low for more than (8 - h0)·DIV + 8·DIV cycles, which is at most
15·DIV: every longer stretch of its waveform holds a high cycle. -/
def Obligations.LongestLowInsideCommand : Prop :=
  ∀ (p : Params) (i : Instr) (start : Nat), p.codesOk = true → isEnc i = true →
    start + ((8 - p.h0) * p.div + 8 * p.div) < (wave p (instrSymbols p i)).length →
    (8 - p.h0) * p.div + 8 * p.div ≤ 15 * p.div ∧
    ∃ k, k ≤ (8 - p.h0) * p.div + 8 * p.div ∧ (wave p (instrSymbols p i))[start + k]? = some true

/-- R109: an ENC command accepted with the serializer idle keeps the block busy for exactly (n-1)·8·DIV + 3
cycles, whatever the host presents meanwhile; accepted over the rest of an IDLE, longer by the cycles the IDLE still
takes beyond the third (R108). -/
def Obligations.EncBusyDuration : Prop :=
  ∀ (p : Params) (i : Instr) (s : State) (rest : List HostMove) (k : Nat),
    1 ≤ p.div → isEnc i = true → s.sequencer.busy = false → s.serializer.isQuiet p = true →
    s.host = .send (encode i) :: rest → resetFree rest = true →
    1 ≤ k → k ≤ encBusyCycles p (instrSymbols p i).length + idleDelay p s.serializer + 1 →
    ∃ u, cycles (stepAt p) k s = .next u ∧
      u.sequencer.busy = decide (k ≤ encBusyCycles p (instrSymbols p i).length + idleDelay p s.serializer)

/-- R109, R111: the line of an armed ENC command. Accepted with the serializer idle, from the acceptance cycle on:
three low cycles, then the symbols with no gap, each bit DIV cycles, then low; up to completion whatever the host
presents meanwhile, and for ever if it presents nothing more. Accepted over the rest of an IDLE, the low cycles before
the symbols last until the IDLE has shifted out (R108). -/
def Obligations.EncWaveform : Prop :=
  ∀ (p : Params) (i : Instr) (s : State) (rest : List HostMove) (n : Nat),
    1 ≤ p.div → isEnc i = true → s.sequencer.busy = false → s.serializer.isQuiet p = true →
    s.arch.pinMode = .serial → s.host = .send (encode i) :: rest → resetFree rest = true →
    (rest = [] ∨ n ≤ encBusyCycles p (instrSymbols p i).length + idleDelay p s.serializer + 1) →
    lineTrace p n s =
      (List.replicate (3 + idleDelay p s.serializer) false ++ wave p (instrSymbols p i) ++
        List.replicate n false).take n

/-- R185: two ENC commands, the second accepted k cycles later than it could be. Its first symbol follows the
first command's IDLE with max(0, k + 4 - 8·DIV) extra low cycles. -/
def Obligations.GapBetweenEncCommands : Prop :=
  ∀ (p : Params) (i i' : Instr) (s : State) (k n : Nat),
    1 ≤ p.div → isEnc i = true → isEnc i' = true → s.sequencer.busy = false → s.serializer.isEmpty = true →
    s.arch.pinMode = .serial →
    s.host = .send (encode i) ::
      (List.replicate (encBusyCycles p (instrSymbols p i).length + k) HostMove.pause ++ [.send (encode i')]) →
    lineTrace p n s =
      ([false, false, false] ++ wave p (instrSymbols p i) ++ List.replicate (extraLow p k) false ++
        wave p (instrSymbols p i') ++ List.replicate n false).take n

/-- R105: from every ready state, armed or not, whose serializer is idle or shifting the rest of an IDLE, and with a
host that is never late, WRITE_COLOR R, G, B and ENCODE_BYTE G, R, B give the same waveform, cycle for cycle. -/
def Obligations.ColourWaveEqualsThreeByteWaves : Prop :=
  ∀ (p : Params) (r g b : Byte) (s : State) (n : Nat), 1 ≤ p.div → s.sequencer.busy = false →
    s.serializer.isQuiet p = true →
    lineTrace p n { s with host := promptHost [encode (.writeColor r g b)] } =
      lineTrace p n { s with host := promptHost [encode (.encodeByte g), encode (.encodeByte r), encode (.encodeByte b)] }

/-- R116, R163: an ENC command accepted unarmed runs the same sequencing with the same timing as armed, whatever the
host does from then on. Up to its completion, whatever the host presents meanwhile, and for ever if it presents nothing
more, the line is low, err_unarmed is set from the acceptance edge on, the symbols are Shadow symbols, and frame and
pin mode do not change. -/
def Obligations.UnarmedEncRunsSilently : Prop :=
  ∀ (p : Params) (i : Instr) (s : State) (rest : List HostMove) (n : Nat),
    isEnc i = true → s.sequencer.busy = false → s.arch.pinMode = .gpio → s.arch.gpioLevel = false →
    s.host = .send (encode i) :: rest →
    traceOf (fun u => [(u.sequencer, u.serializer)]) (stepAt p) n s =
      traceOf (fun u => [(u.sequencer, u.serializer)]) (stepAt p) n (s.withPin .serial) ∧
    (rest = [] ∨
      resetFree rest = true ∧ s.serializer.isQuiet p = true ∧
        n ≤ encBusyCycles p (instrSymbols p i).length + idleDelay p s.serializer + 1 →
      lineTrace p n s = List.replicate n false ∧
      (1 ≤ n → ∃ t, cycles (stepAt p) n s = .next t ∧
        t.arch = { s.arch with
          errUnarmed := true
          obs := s.arch.obs ++ [.fault .unarmedWrite] ++ (instrSymbols p i).map .shadow }))

/-- R141, R140, R143, R145, R164: after a LATCH the block is busy in exactly the next LATCH_HOLD_CYCLES cycles, the
timer counting down, the line low and the pin a plain output throughout; whatever the host presents and whatever
the serializer does, so that LATCH cannot hang. -/
def Obligations.LatchHoldsExactly : Prop :=
  ∀ (p : Params) (ser : Option Byte → Serializer → Serializer) (s : State) (rest : List HostMove) (k : Nat),
    1 ≤ p.latchHoldCycles → s.sequencer.busy = false → s.host = .send (encode .latch) :: rest →
    resetFree rest = true → 1 ≤ k → k ≤ p.latchHoldCycles + 1 →
    ∃ u, cycles (stepVia p ser (execAt p)) k s = .next u ∧
      u.sequencer.busy = decide (k ≤ p.latchHoldCycles) ∧
      u.sequencer.latchCnt = p.latchHoldCycles + 1 - k ∧ u.line = false ∧
      u.arch = { s.arch with
        pinMode := .gpio, gpioLevel := false, frame := .idle
        obs := s.arch.obs ++ [.hold p.latchHoldCycles] }

/-- R141: LATCH, ARM and an ENC command presented at the earliest edges, from an idle serializer. The line is low
from the cycle after LATCH's acceptance for LATCH_HOLD_CYCLES + 4 cycles, and the first bit of the next frame
follows. -/
def Obligations.EarliestBitAfterLatch : Prop :=
  ∀ (p : Params) (i : Instr) (s : State),
    1 ≤ p.div → 1 ≤ p.latchHoldCycles → isEnc i = true → s.sequencer.busy = false → s.serializer.isEmpty = true →
    s.host = promptHost [encode .latch, encode .arm, encode i] →
    ∃ v, (instrSymbols p i)[0]? = some v ∧
      (lineTrace p (p.latchHoldCycles + 6) s).drop 1 =
        List.replicate (p.latchHoldCycles + 4) false ++ [v.getLsbD 7]

/-- R112: at the completion edge of an ENC command the buffer is empty, every symbol has been handed over, and the
IDLE, just loaded, has been on the line for one cycle: 8·DIV - 1 cycles of it remain. -/
def Obligations.CompletionLeavesOnlyIdle : Prop :=
  ∀ (p : Params) (s t : State), p.countersOk = true → Inv p s → s.rst = false → s.encExecuting = true →
    stepAt p s = .next t → t.sequencer.busy = false →
    t.txReady = true ∧ t.sequencer.symIdx = t.sequencer.nSym ∧ t.serializer.sh = Config.idle ∧
    (t.serializer.shBits - 1) * p.div + (p.div - t.serializer.divCnt) = 8 * p.div - 1 ∧ t.line = false

/-- R113, R149: in every state that meets the invariant in which no ENC command is executing the line is low; so it is
after every step from a state that meets it, and in every cycle of every run from reset, whatever the host does:
between commands, during a hold, and from a LATCH through an ARM to the next ENC command. -/
def Obligations.LineLowOutsideEncCommands : Prop :=
  (∀ (p : Params) (s : State), Inv p s → s.encExecuting = false → s.line = false) ∧
  (∀ (p : Params) (s t : State), p.countersOk = true → Inv p s → stepAt p s = .next t → t.encExecuting = false →
    t.line = false) ∧
  (∀ (p : Params) (hs : List HostMove) (n : Nat) (t : State), p.countersOk = true →
    cycles (stepAt p) n (startWith hs) = .next t → t.encExecuting = false → t.line = false)

/-- R117, R164, R188: with a serializer that never becomes ready, an executing ENC command never completes, busy
stays 1 and no word is accepted, for ever; and the serializer of R108 becomes ready within 8·DIV + 1 cycles. -/
def Obligations.StalledSerializerHangs : Prop :=
  (∀ (p : Params) (ser : Option Byte → Serializer → Serializer) (s : State) (n : Nat),
    (∀ w z, z.txbufFull = true → (ser w z).txbufFull = true) →
    s.encExecuting = true → s.txReady = false → resetFree s.host = true →
    ∃ t, cycles (stepVia p ser (execAt p)) n s = .next t ∧ t.sequencer = s.sequencer ∧ t.arch = s.arch ∧
      t.txReady = false ∧ t.cmdReady = false ∧ t.acceptedWord = none) ∧
  (∀ (p : Params) (z : Serializer), z.shBits ≤ 8 → z.divCnt < p.div →
    ∃ k, k ≤ 8 * p.div + 1 ∧ (serializerRun p (List.replicate k none) z).txbufFull = false)

/-! ### The invariant -/

/-- The reset state meets the invariant, for every host. -/
def Obligations.ResetMeetsInvariant : Prop :=
  ∀ (p : Params) (hs : List HostMove), p.countersOk = true → Inv p (startWith hs)

/-- Every step keeps the invariant: the ranges of R26 to R30, the phases of R106 and R107, the quiet serializer of
R113, gpio_level at 0 (R22), and the error flags against the recorded errors (R161). -/
def Obligations.StepKeepsInvariant : Prop :=
  (∀ (p : Params) (s t : State), p.countersOk = true → Inv p s → stepAt p s = .next t → Inv p t) ∧
  (∀ s t : State, Inv Config.params s → step s = .next t → Inv Config.params t)

/-- R167: no error and nothing else stops the block. From a state that meets the invariant every step answers a
next state, and so does every run from reset, whatever the host does. -/
def Obligations.BlockNeverStops : Prop :=
  (∀ (p : Params) (s : State), Inv p s → ∃ t, stepAt p s = .next t) ∧
  (∀ s : State, Inv Config.params s → ∃ t, step s = .next t) ∧
  (∀ (p : Params) (hs : List HostMove) (n : Nat), p.countersOk = true →
    ∃ t, cycles (stepAt p) n (startWith hs) = .next t)

/-! ### The two levels -/

/-- R10, R60: the transaction level. After any number of cycles without a block reset the transaction-level state
is that of the accepted words taken one after another, each as one atomic step. -/
def Obligations.CyclesRefineTransactions : Prop :=
  ∀ (p : Params) (s t : State) (n : Nat), resetFree s.host = true → cycles (stepAt p) n s = .next t →
    t.arch = (acceptedWords p n s).foldl (transact p) s.arch

/-- R61: the Sym and Shadow events are the accepted commands' sequences, in acceptance order. -/
def Obligations.SymbolOrderIsAcceptanceOrder : Prop :=
  ∀ (p : Params) (s t : State) (n : Nat), resetFree s.host = true → cycles (stepAt p) n s = .next t →
    symbolsIn t.arch.obs = symbolsIn s.arch.obs ++ (acceptedWords p n s).flatMap (symbolsOf p)

/-- R110: the bytes the shift register takes are the recorded Sym and Shadow payloads, in the same order, none
lost, none added: what was in flight and what was accepted is what was loaded and what is in flight still. -/
def Obligations.LoadedBytesAreRecordedSymbols : Prop :=
  ∀ (p : Params) (s t : State) (n : Nat), p.countersOk = true → Inv p s → resetFree s.host = true →
    cycles (stepAt p) n s = .next t →
    inFlight p s ++ (acceptedWords p n s).flatMap (symbolsOf p) = loadedBytes p n s ++ inFlight p t

/-- R108, R109, R141: with a host that presents finitely many words and is never late, every run from reset comes to
its end as R192 defines it, within a bound. -/
def Obligations.PromptRunsEnd : Prop :=
  ∀ (p : Params) (ws : List Word), p.countersOk = true →
    ∃ n t, n ≤ ws.length * (216 * p.div + p.latchHoldCycles + 4) + 8 * p.div ∧
      cycles (stepAt p) n (startWith (promptHost ws)) = .next t ∧ t.runOver = true

/-- R192: the end of a run is final. With no more commands, and the host pausing, every further cycle leaves the block
as it is; a block reset gives the reset values; and in either case the run is still over. That pauses and resets are no
commands is an inference of the model (log 26), and that a block reset leaves the host's moves is its choice (log 18). -/
def Obligations.EndOfRunIsFinal : Prop :=
  ∀ (p : Params) (s : State), Inv p s → s.runOver = true →
    s.acceptedWord = none ∧
    ∃ t, stepAt p s = .next t ∧ t.runOver = true ∧
      (s.rst = false → t = { s with host := hostWaits s.host }) ∧ (s.rst = true → HoldsResetValues t)

/-- R192, R146: under a well-formed parameter set an accepted word commits a frame exactly when it is LATCH. -/
def Obligations.OnlyLatchCommitsFrame : Prop :=
  ∀ (p : Params) (a : Arch) (w : Word), p.wf = true →
    (transact p a w).obs.any (Event.commits p) =
      (a.obs.any (Event.commits p) || decide (decode w = some .latch))

/-- R184, R186: a host that keeps the frame protocol records no error in any run. -/
def Obligations.ProtocolHostIsFaultFree : Prop :=
  ∀ (p : Params) (s t : State) (n : Nat), resetFree s.host = true → s.arch.faultFree = true →
    cycles (stepAt p) n s = .next t →
    keepsProtocol (decide (s.arch.pinMode = .serial)) (acceptedWords p n s) = true → t.arch.faultFree = true

/-- R146, R193: in the reference configuration the hold is 100 microseconds, a bit 5/24 of a microsecond, and a
symbol 5/3 microseconds. -/
def Obligations.ReferenceDurations : Prop :=
  Config.params.seconds Config.params.latchHoldCycles = 1 / 10000 ∧
  Config.params.seconds Config.params.div = 5 / 24000000 ∧
  Config.params.seconds (8 * Config.params.div) = 5 / 3000000
end

