-- ==== Sys2Proof/Laws/State.lean ====
section
/-! SUPPORT. One lemma per field per update of the state, so that no proof unfolds a record update. -/

namespace Sys2Proof.Machine

variable (a : Arch) (q : Sequencer) (z : Serializer) (s : State)


/-! ### Arch.emit -/

@[simp] theorem Arch.emit_frame (evs : List Event) : (a.emit evs).frame = a.frame := rfl
@[simp] theorem Arch.emit_pinMode (evs : List Event) : (a.emit evs).pinMode = a.pinMode := rfl
@[simp] theorem Arch.emit_gpioLevel (evs : List Event) : (a.emit evs).gpioLevel = a.gpioLevel := rfl
@[simp] theorem Arch.emit_errIllegal (evs : List Event) : (a.emit evs).errIllegal = a.errIllegal := rfl
@[simp] theorem Arch.emit_errUnarmed (evs : List Event) : (a.emit evs).errUnarmed = a.errUnarmed := rfl
@[simp] theorem Arch.emit_obs (evs : List Event) : (a.emit evs).obs = a.obs ++ evs := rfl

/-! ### Arch.raise_illegalCommand -/

@[simp] theorem Arch.raise_illegalCommand_frame : (a.raise .illegalCommand).frame = a.frame := rfl
@[simp] theorem Arch.raise_illegalCommand_pinMode : (a.raise .illegalCommand).pinMode = a.pinMode := rfl
@[simp] theorem Arch.raise_illegalCommand_gpioLevel : (a.raise .illegalCommand).gpioLevel = a.gpioLevel := rfl
@[simp] theorem Arch.raise_illegalCommand_errIllegal : (a.raise .illegalCommand).errIllegal = true := rfl
@[simp] theorem Arch.raise_illegalCommand_errUnarmed : (a.raise .illegalCommand).errUnarmed = a.errUnarmed := rfl
@[simp] theorem Arch.raise_illegalCommand_obs : (a.raise .illegalCommand).obs = a.obs ++ [.fault .illegalCommand] := rfl

/-! ### Arch.raise_unarmedWrite -/

@[simp] theorem Arch.raise_unarmedWrite_frame : (a.raise .unarmedWrite).frame = a.frame := rfl
@[simp] theorem Arch.raise_unarmedWrite_pinMode : (a.raise .unarmedWrite).pinMode = a.pinMode := rfl
@[simp] theorem Arch.raise_unarmedWrite_gpioLevel : (a.raise .unarmedWrite).gpioLevel = a.gpioLevel := rfl
@[simp] theorem Arch.raise_unarmedWrite_errIllegal : (a.raise .unarmedWrite).errIllegal = a.errIllegal := rfl
@[simp] theorem Arch.raise_unarmedWrite_errUnarmed : (a.raise .unarmedWrite).errUnarmed = true := rfl
@[simp] theorem Arch.raise_unarmedWrite_obs : (a.raise .unarmedWrite).obs = a.obs ++ [.fault .unarmedWrite] := rfl

/-! ### Arch.illegal -/

@[simp] theorem Arch.illegal_frame : (a.illegal).frame = a.frame := rfl
@[simp] theorem Arch.illegal_pinMode : (a.illegal).pinMode = a.pinMode := rfl
@[simp] theorem Arch.illegal_gpioLevel : (a.illegal).gpioLevel = a.gpioLevel := rfl
@[simp] theorem Arch.illegal_errIllegal : (a.illegal).errIllegal = true := rfl
@[simp] theorem Arch.illegal_errUnarmed : (a.illegal).errUnarmed = a.errUnarmed := rfl
@[simp] theorem Arch.illegal_obs : (a.illegal).obs = a.obs ++ [.fault .illegalCommand] := rfl

/-! ### Arch.latch -/

@[simp] theorem Arch.latch_frame (p : Params) : (a.latch p).frame = .idle := rfl
@[simp] theorem Arch.latch_pinMode (p : Params) : (a.latch p).pinMode = .gpio := rfl
@[simp] theorem Arch.latch_gpioLevel (p : Params) : (a.latch p).gpioLevel = false := rfl
@[simp] theorem Arch.latch_errIllegal (p : Params) : (a.latch p).errIllegal = a.errIllegal := rfl
@[simp] theorem Arch.latch_errUnarmed (p : Params) : (a.latch p).errUnarmed = a.errUnarmed := rfl
@[simp] theorem Arch.latch_obs (p : Params) : (a.latch p).obs = a.obs ++ [.hold p.latchHoldCycles] := rfl

/-! ### Arch.arm -/

@[simp] theorem Arch.arm_frame : (a.arm).frame = a.frame := rfl
@[simp] theorem Arch.arm_pinMode : (a.arm).pinMode = .serial := rfl
@[simp] theorem Arch.arm_gpioLevel : (a.arm).gpioLevel = a.gpioLevel := rfl
@[simp] theorem Arch.arm_errIllegal : (a.arm).errIllegal = a.errIllegal := rfl
@[simp] theorem Arch.arm_errUnarmed : (a.arm).errUnarmed = a.errUnarmed := rfl
@[simp] theorem Arch.arm_obs : (a.arm).obs = a.obs ++ [.armed] := rfl

/-! ### Arch.recordSymbols -/

@[simp] theorem Arch.recordSymbols_pinMode (seq : List Byte) : (a.recordSymbols seq).pinMode = a.pinMode := by
  unfold Arch.recordSymbols; split <;> rfl

@[simp] theorem Arch.recordSymbols_gpioLevel (seq : List Byte) : (a.recordSymbols seq).gpioLevel = a.gpioLevel := by
  unfold Arch.recordSymbols; split <;> rfl

@[simp] theorem Arch.recordSymbols_errIllegal (seq : List Byte) : (a.recordSymbols seq).errIllegal = a.errIllegal := by
  unfold Arch.recordSymbols; split <;> rfl

theorem Arch.recordSymbols_serial (seq : List Byte) (h : a.pinMode = .serial) :
    a.recordSymbols seq = { a with frame := .transmitting, obs := a.obs ++ seq.map .sym } := by
  simp [Arch.recordSymbols, h, Arch.emit]

theorem Arch.recordSymbols_gpio (seq : List Byte) (h : a.pinMode = .gpio) :
    a.recordSymbols seq =
      { a with errUnarmed := true, obs := a.obs ++ [.fault .unarmedWrite] ++ seq.map .shadow } := by
  simp [Arch.recordSymbols, h, Arch.emit, Arch.raise]


/-! ### Sequencer.startEnc -/

@[simp] theorem Sequencer.startEnc_busy (h : Holding) (n : Nat) : (q.startEnc h n).busy = true := rfl
@[simp] theorem Sequencer.startEnc_op (h : Holding) (n : Nat) : (q.startEnc h n).op = .enc := rfl
@[simp] theorem Sequencer.startEnc_phase (h : Holding) (n : Nat) : (q.startEnc h n).phase = .send := rfl
@[simp] theorem Sequencer.startEnc_h (h : Holding) (n : Nat) : (q.startEnc h n).h = h := rfl
@[simp] theorem Sequencer.startEnc_nSym (h : Holding) (n : Nat) : (q.startEnc h n).nSym = n := rfl
@[simp] theorem Sequencer.startEnc_symIdx (h : Holding) (n : Nat) : (q.startEnc h n).symIdx = 0 := rfl
@[simp] theorem Sequencer.startEnc_latchCnt (h : Holding) (n : Nat) : (q.startEnc h n).latchCnt = q.latchCnt := rfl

/-! ### Sequencer.startHold -/

@[simp] theorem Sequencer.startHold_busy (n : Nat) : (q.startHold n).busy = true := rfl
@[simp] theorem Sequencer.startHold_op (n : Nat) : (q.startHold n).op = .latch := rfl
@[simp] theorem Sequencer.startHold_phase (n : Nat) : (q.startHold n).phase = q.phase := rfl
@[simp] theorem Sequencer.startHold_h (n : Nat) : (q.startHold n).h = q.h := rfl
@[simp] theorem Sequencer.startHold_nSym (n : Nat) : (q.startHold n).nSym = q.nSym := rfl
@[simp] theorem Sequencer.startHold_symIdx (n : Nat) : (q.startHold n).symIdx = q.symIdx := rfl
@[simp] theorem Sequencer.startHold_latchCnt (n : Nat) : (q.startHold n).latchCnt = n := rfl

/-! ### Serializer.write -/

@[simp] theorem Serializer.write_sh (w : Option Byte) : (z.write w).sh = z.sh := by cases w <;> rfl
@[simp] theorem Serializer.write_shBits (w : Option Byte) : (z.write w).shBits = z.shBits := by cases w <;> rfl
@[simp] theorem Serializer.write_divCnt (w : Option Byte) : (z.write w).divCnt = z.divCnt := by cases w <;> rfl
@[simp] theorem Serializer.write_none : z.write none = z := rfl
@[simp] theorem Serializer.write_some (v : Byte) : z.write (some v) = { z with txbuf := v, txbufFull := true } := rfl

/-! ### Whole-state updates -/

@[simp] theorem blockReset_arch : (blockReset s).arch = State.reset.arch := rfl
@[simp] theorem blockReset_sequencer : (blockReset s).sequencer = State.reset.sequencer := rfl
@[simp] theorem blockReset_serializer : (blockReset s).serializer = State.reset.serializer := rfl
@[simp] theorem blockReset_host : (blockReset s).host = s.host.tail := rfl
@[simp] theorem withFetchWord_arch (nbits w : Nat) : (s.withFetchWord nbits w).arch = s.arch := rfl
@[simp] theorem withFetchWord_sequencer (nbits w : Nat) : (s.withFetchWord nbits w).sequencer = { s.sequencer with busy := false } := rfl
@[simp] theorem withFetchWord_serializer (nbits w : Nat) : (s.withFetchWord nbits w).serializer = s.serializer := rfl
@[simp] theorem withFetchWord_host (nbits w : Nat) : (s.withFetchWord nbits w).host = .send (tableWord nbits w) :: s.host := rfl
@[simp] theorem clockEdge_arch (ser : Option Byte → Serializer → Serializer) (w : Option Byte) : (clockEdge ser w s).arch = s.arch := rfl
@[simp] theorem clockEdge_sequencer (ser : Option Byte → Serializer → Serializer) (w : Option Byte) : (clockEdge ser w s).sequencer = sequencerEdge s.txReady s.sequencer := rfl
@[simp] theorem clockEdge_serializer (ser : Option Byte → Serializer → Serializer) (w : Option Byte) : (clockEdge ser w s).serializer = ser w s.serializer := rfl
@[simp] theorem clockEdge_host (ser : Option Byte → Serializer → Serializer) (w : Option Byte) : (clockEdge ser w s).host = hostWaits s.host := rfl

end Sys2Proof.Machine
end

