-- ==== Sys2Proof/Laws/Ops.lean ====
section
/-! SUPPORT. One lemma per shared operation, saying everything it can do; later proofs cite these instead of
unfolding. -/

namespace Sys2Proof.Machine

/-! ### Sequencing of results -/

theorem andThen_eq_next {r : Result} {f : State → Result} {u : State} (h : andThen r f = .next u) :
    ∃ t, r = .next t ∧ f t = .next u := by
  cases r with
  | next t => exact ⟨t, rfl, h⟩
  | fault e => cases h
  | refused e => cases h

@[simp] theorem andThen_next (t : State) (f : State → Result) : andThen (.next t) f = f t := rfl

theorem whenReady_ready {effect : State → State} {s : State} (h : s.sequencer.busy = false) :
    whenReady effect s = .next (effect s) := by simp [whenReady, h]

theorem whenReady_busy {effect : State → State} {s : State} (h : s.sequencer.busy = true) :
    whenReady effect s = .next s := by simp [whenReady, h]

/-! ### The ports -/

theorem accepts_iff (s : State) :
    s.accepts = true ↔ s.rst = false ∧ s.cmdValid = true ∧ s.sequencer.busy = false := by
  simp [State.accepts, State.cmdReady, and_assoc]

theorem accepts_false_of_busy {s : State} (h : s.sequencer.busy = true) : s.accepts = false := by
  simp [State.accepts, State.cmdReady, h]

/-- With nothing left to do the host raises no reset and presents no word. -/
theorem ports_of_quiet_host {s : State} (h : s.host = []) : s.rst = false ∧ s.accepts = false := by
  simp [State.rst, State.accepts, State.cmdValid, h]

/-- A held word is presented without a reset. -/
theorem ports_of_send {s : State} {w : Word} {rest : List HostMove} (h : s.host = .send w :: rest) :
    s.rst = false ∧ s.cmdValid = true ∧ s.cmdData = w := by
  simp [State.rst, State.cmdValid, State.cmdData, h]

/-! ### The instructions -/

/-- The dispatcher is the general meaning at the reference configuration. -/
theorem exec_eq_execAt (i : Instr) (s : State) : exec i s = execAt Config.params i s := by
  cases i <;> rfl

/-- The machine's step is the general cycle at the reference configuration. -/
theorem step_eq_stepAt (s : State) : step s = stepAt Config.params s := by
  have h : exec = execAt Config.params := by
    funext i s
    exact exec_eq_execAt i s
  simp only [step, stepAt, h]

/-- Everything a command does to a ready block: the transaction, the sequencer's start, and nothing else. -/
theorem execAt_ready (p : Params) (i : Instr) {s : State} (h : s.sequencer.busy = false) :
    ∃ q, execAt p i s = .next { s with arch := transactInstr p i s.arch, sequencer := q } ∧
      (isEnc i = true → ∃ hold, q = s.sequencer.startEnc hold (instrSymbols p i).length) ∧
      (i = .latch → q = s.sequencer.startHold p.latchHoldCycles) ∧
      (i = .arm → q = s.sequencer) := by
  cases i with
  | writeColor r g b =>
    exact ⟨s.sequencer.startEnc ⟨g, r, b⟩ Config.symsPerPixel, by simp [execAt, writeColorAt, whenReady, h, transactInstr],
      fun _ => ⟨_, rfl⟩, nofun, nofun⟩
  | encodeByte b =>
    exact ⟨s.sequencer.startEnc ⟨b, s.sequencer.h.h1, s.sequencer.h.h2⟩ Config.symsPerByte,
      by simp [execAt, encodeByteAt, whenReady, h, transactInstr], fun _ => ⟨_, rfl⟩, nofun, nofun⟩
  | latch =>
    exact ⟨s.sequencer.startHold p.latchHoldCycles, by simp [execAt, latchAt, whenReady, h, transactInstr],
      nofun, fun _ => rfl, nofun⟩
  | arm =>
    exact ⟨s.sequencer, by simp [execAt, armAt, whenReady, h, transactInstr], nofun, nofun, fun _ => rfl⟩

theorem execAt_busy (p : Params) (i : Instr) {s : State} (h : s.sequencer.busy = true) :
    execAt p i s = .next s := by
  cases i <;> simp [execAt, writeColorAt, encodeByteAt, latchAt, armAt, whenReady, h]

/-- What an accepted word does: the transaction of the word, a start of the sequencer, and nothing else. -/
theorem takeWord_ready (p : Params) (w : Word) {s : State} (h : s.sequencer.busy = false) :
    ∃ q, takeWord (execAt p) w s = .next { s with arch := transact p s.arch w, sequencer := q } ∧
      (decode w = none → q = s.sequencer) := by
  unfold takeWord transact
  cases hd : decode w with
  | none => exact ⟨_, whenReady_ready h, fun _ => rfl⟩
  | some i =>
    obtain ⟨q, hq, -⟩ := execAt_ready p i h
    exact ⟨q, hq, nofun⟩

/-! ### The serializer -/

@[simp] theorem shift_txbuf (p : Params) (z : Serializer) : (z.shift p).txbuf = z.txbuf := by
  unfold Serializer.shift; split
  · split <;> rfl
  · rfl

@[simp] theorem shift_txbufFull (p : Params) (z : Serializer) : (z.shift p).txbufFull = z.txbufFull := by
  unfold Serializer.shift; split
  · split <;> rfl
  · rfl

/-- Between two bit boundaries only the bit's cycle count moves. -/
theorem shift_midBit {p : Params} {z : Serializer} (hb : 0 < z.shBits) (hd : z.divCnt ≠ p.div - 1) :
    z.shift p = { z with divCnt := z.divCnt + 1 } := by
  simp [Serializer.shift, hb, hd]

/-- At a bit boundary the register shifts. -/
theorem shift_bitEnd {p : Params} {z : Serializer} (hb : 0 < z.shBits) (hd : z.divCnt = p.div - 1) :
    z.shift p = { z with sh := z.sh <<< 1, shBits := z.shBits - 1, divCnt := 0 } := by
  simp [Serializer.shift, hb, hd]

/-- With nothing shifting the register keeps its contents. -/
theorem shift_empty {p : Params} {z : Serializer} (hb : z.shBits = 0) : z.shift p = { z with divCnt := 0 } := by
  simp [Serializer.shift, hb]

theorem load_taken {z : Serializer} (hb : z.shBits = 0) (hf : z.txbufFull = true) :
    z.load = { z with sh := z.txbuf, shBits := 8, divCnt := 0, txbufFull := false } := by
  simp [Serializer.load, hb, hf]

theorem load_not_taken {z : Serializer} (h : z.shBits ≠ 0 ∨ z.txbufFull = false) : z.load = z := by
  unfold Serializer.load
  split
  · simp_all
  · rfl

/-- An empty serializer with nothing written stays empty. -/
theorem serializerEdge_empty {p : Params} {z : Serializer} (hb : z.shBits = 0) (hf : z.txbufFull = false) :
    serializerEdge p none z = { z with divCnt := 0 } := by
  have hl : ({ z with divCnt := 0 } : Serializer).load = { z with divCnt := 0 } := load_not_taken (Or.inr hf)
  rw [serializerEdge, shift_empty hb, hl, Serializer.write_none]

/-! ### Symbols -/

@[simp] theorem encSeq_length (p : Params) (b : Byte) : (encSeq p b).length = 9 := rfl

@[simp] theorem pixelSeq_length (p : Params) (r g b : Byte) : (pixelSeq p r g b).length = 27 := rfl

/-- A symbol exists for every index the block ever uses. -/
theorem symAt_isSome (p : Params) (h : Holding) {j : Nat} (hj : j < 27) : ∃ v, symAt p h j = some v := by
  have h3 : j / 9 = 0 ∨ j / 9 = 1 ∨ j / 9 = 2 := by omega
  rcases h3 with h3 | h3 | h3 <;> simp [symAt, h3, Holding.get?]

/-- The last symbol of a channel byte is the IDLE. -/
theorem symAt_idle (p : Params) (h : Holding) {j : Nat} (hj : j < 27) (h8 : j % 9 = 8) :
    symAt p h j = some Config.idle := by
  have h3 : j / 9 = 0 ∨ j / 9 = 1 ∨ j / 9 = 2 := by omega
  rcases h3 with h3 | h3 | h3 <;> simp [symAt, h3, Holding.get?, h8]

end Sys2Proof.Machine
end

