-- ==== Sys2Proof/Laws/Cycle.lean ====
section
/-! SUPPORT. What one cycle can do, said once: the sequencer's edge and the step, by cases. -/

namespace Sys2Proof.Machine

/-- The sequencer and the serializer's TX_READY decide a hand-over. -/
theorem handsOver_iff (r : Bool) (q : Sequencer) :
    handsOver r q = true ↔ q.busy = true ∧ q.op = .enc ∧ q.phase = .send ∧ r = true := by
  simp [handsOver, and_assoc]

theorem encExecuting_iff (s : State) :
    s.encExecuting = true ↔ s.sequencer.busy = true ∧ s.sequencer.op = .enc := by
  simp [State.encExecuting]

/-! ### The sequencer's edge -/

theorem sequencerEdge_idle {r : Bool} {q : Sequencer} (h : q.busy = false) : sequencerEdge r q = q := by
  simp [sequencerEdge, h]

theorem sequencerEdge_send {q : Sequencer} (hb : q.busy = true) (ho : q.op = .enc) (hp : q.phase = .send) :
    sequencerEdge true q =
      { q with symIdx := q.symIdx + 1, phase := if q.symIdx + 1 = q.nSym then .drain else .send } := by
  simp [sequencerEdge, hb, ho, hp]

theorem sequencerEdge_drain {q : Sequencer} (hb : q.busy = true) (ho : q.op = .enc) (hp : q.phase = .drain) :
    sequencerEdge true q = { q with busy := false } := by
  simp [sequencerEdge, hb, ho, hp]

/-- An ENC command waits while the buffer is full. -/
theorem sequencerEdge_waits {q : Sequencer} (ho : q.op = .enc) : sequencerEdge false q = q := by
  unfold sequencerEdge
  split
  · rw [ho]
    cases hp : q.phase <;> simp
  · rfl

theorem sequencerEdge_hold {r : Bool} {q : Sequencer} (hb : q.busy = true) (ho : q.op = .latch) :
    sequencerEdge r q = if q.latchCnt ≤ 1 then { q with latchCnt := 0, busy := false }
      else { q with latchCnt := q.latchCnt - 1 } := by
  simp [sequencerEdge, hb, ho]

/-! ### The step -/

/-- Everything a cycle can do. -/
theorem stepAt_cases {p : Params} {s t : State} (h : stepAt p s = .next t) :
    (s.rst = true ∧ t = blockReset s) ∨
    (s.rst = false ∧ s.accepts = true ∧ ∃ u, takeWord (execAt p) s.cmdData s = .next u ∧
      t = { u with serializer := serializerEdge p none u.serializer, host := s.host.tail }) ∨
    (s.rst = false ∧ s.accepts = false ∧ t = clockEdge (serializerEdge p) (txWrite p s) s ∧
      (handsOver s.txReady s.sequencer = true → ∃ v, txWrite p s = some v)) := by
  unfold stepAt stepVia at h
  split at h
  · rename_i hr
    exact .inl ⟨hr, by simpa using h.symm⟩
  · rename_i hr
    simp only [Bool.not_eq_true] at hr
    split at h
    · rename_i ha
      obtain ⟨u, hu, hf⟩ := andThen_eq_next h
      refine .inr (.inl ⟨hr, ha, u, hu, ?_⟩)
      simpa [finishAccept] using hf.symm
    · rename_i ha
      unfold advance at h
      split at h
      · cases h
      · rename_i hn
        refine .inr (.inr ⟨hr, by simpa using ha, by simpa using h.symm, fun hv => ?_⟩)
        cases hw : txWrite p s with
        | none => simp [hv, hw] at hn
        | some v => exact ⟨v, rfl⟩

/-- A cycle without reset changes the transaction-level state by the accepted word's transaction, or not at all. -/
theorem stepAt_arch {p : Params} {s t : State} (h : stepAt p s = .next t) (hr : s.rst = false) :
    t.arch = match s.acceptedWord with
      | some w => transact p s.arch w
      | none => s.arch := by
  rcases stepAt_cases h with ⟨hr', -⟩ | ⟨-, ha, u, hu, rfl⟩ | ⟨-, ha, rfl, -⟩
  · simp [hr] at hr'
  · obtain ⟨q, hq, -⟩ := takeWord_ready p s.cmdData ((accepts_iff s).mp ha).2.2
    rw [hq] at hu
    cases hu
    simp [State.acceptedWord, ha]
  · simp [State.acceptedWord, ha]

/-! ### Runs -/

@[simp] theorem cycles_zero (stp : State → Result) (s : State) : cycles stp 0 s = .next s := rfl

theorem cycles_succ {stp : State → Result} {n : Nat} {s t u : State} (h : stp s = .next t)
    (hn : cycles stp n t = .next u) : cycles stp (n + 1) s = .next u := by
  simp [cycles, h, hn]

theorem cycles_succ_cases {stp : State → Result} {n : Nat} {s u : State} (h : cycles stp (n + 1) s = .next u) :
    ∃ t, stp s = .next t ∧ cycles stp n t = .next u := andThen_eq_next h

/-- A property that every step keeps holds after any number of cycles. -/
theorem cycles_induction {stp : State → Result} {I : State → Prop}
    (hI : ∀ s t, I s → stp s = .next t → I t) :
    ∀ n s t, I s → cycles stp n s = .next t → I t := by
  intro n
  induction n with
  | zero =>
    intro s t hs h
    cases h
    exact hs
  | succ n ih =>
    intro s t hs h
    obtain ⟨u, hu, hn⟩ := cycles_succ_cases h
    exact ih u t (hI s u hs hu) hn

/-- A trace continues with the trace of the next state. -/
theorem traceOf_succ {α : Type} (see : State → List α) {stp : State → Result} {n : Nat} {s t : State}
    (h : stp s = .next t) : traceOf see stp (n + 1) s = see s ++ traceOf see stp n t := by
  simp [traceOf, h]

/-- A host that raises no reset now or later raises none in the next cycle either. -/
theorem rst_of_resetFree {s : State} (h : resetFree s.host = true) : s.rst = false := by
  unfold State.rst
  split <;> simp_all [resetFree, HostMove.isReset]

theorem resetFree_tail {hs : List HostMove} (h : resetFree hs = true) : resetFree hs.tail = true := by
  cases hs <;> simp_all [resetFree]

theorem resetFree_hostWaits {hs : List HostMove} (h : resetFree hs = true) : resetFree (hostWaits hs) = true := by
  unfold hostWaits
  split <;> simp_all [resetFree]

/-- A host with no more commands presents none in this cycle. -/
theorem accepts_false_of_noMoreCommands {s : State} (h : noMoreCommands s.host = true) : s.accepts = false := by
  unfold State.accepts State.rst State.cmdValid
  split
  · simp_all [noMoreCommands, HostMove.presentsCommand]
    grind
  · simp_all [noMoreCommands, HostMove.presentsCommand]
  · simp

theorem noMoreCommands_tail {hs : List HostMove} (h : noMoreCommands hs = true) : noMoreCommands hs.tail = true := by
  cases hs <;> simp_all [noMoreCommands]

theorem noMoreCommands_hostWaits {hs : List HostMove} (h : noMoreCommands hs = true) :
    noMoreCommands (hostWaits hs) = true := by
  unfold hostWaits
  split <;> simp_all [noMoreCommands]

theorem runOver_iff (s : State) :
    s.runOver = true ↔ noMoreCommands s.host = true ∧ s.sequencer.busy = false ∧
      s.serializer.txbufFull = false ∧ s.serializer.shBits = 0 := by
  simp [State.runOver, Serializer.isEmpty, and_assoc]

/-- The invariant says nothing of the host's coming moves. -/
theorem inv_withHost {p : Params} {s : State} (h : Inv p s) (hs : List HostMove) : Inv p { s with host := hs } :=
  ⟨h.1, h.2, h.3, h.4, h.5, h.6, h.7, h.8, h.9, h.10, h.11, h.12, h.13, h.14, h.15⟩

/-- An empty serializer is quiet, and delays no command. -/
theorem isQuiet_of_isEmpty {p : Params} {z : Serializer} (hd : z.divCnt < p.div) (h : z.isEmpty = true) :
    z.isQuiet p = true ∧ idleDelay p z = 0 := by
  simp_all [Serializer.isEmpty, Serializer.isQuiet, idleDelay, Serializer.cyclesLeft]

/-- A step of a host without resets leaves a host without resets. -/
theorem stepAt_resetFree {p : Params} {s t : State} (h : stepAt p s = .next t) (hf : resetFree s.host = true) :
    resetFree t.host = true := by
  rcases stepAt_cases h with ⟨-, rfl⟩ | ⟨-, -, u, -, rfl⟩ | ⟨-, -, rfl, -⟩
  · exact resetFree_tail hf
  · exact resetFree_tail hf
  · exact resetFree_hostWaits hf

end Sys2Proof.Machine
end

