-- ==== Sys2Proof/Laws/PerInstr.lean ====
section
/-! SUPPORT. Statements made for every instruction, one lemma per constructor. -/

namespace Sys2Proof.Laws

/-- The encoder writes the row's match bits and no other fixed bit: `encode i & mask = match` (R71). -/
def EncodesRow.Statement (i : Instr) : Prop := encode i &&& (tableRow i).mask = (tableRow i).pattern

theorem packWord_mask (m : Byte) (op : BitVec 4) (d2 d1 d0 : Byte) (n2 n1 n0 : Byte) :
    packWord op d2 d1 d0 &&& (m ++ n2 ++ n1 ++ n0) =
      ((op ++ 0#4) &&& m) ++ (d2 &&& n2) ++ (d1 &&& n1) ++ (d0 &&& n0) := by
  simp only [packWord]
  apply BitVec.eq_of_getLsbD_eq
  intro i hi
  simp only [BitVec.getLsbD_and, BitVec.getLsbD_append]
  repeat' split
  all_goals rfl

theorem EncodesRow.writeColor (r g b : Byte) : EncodesRow.Statement (.writeColor r g b) := by
  simpa [EncodesRow.Statement, encode, tableRow] using packWord_mask 0xFF#8 0x1 r g b 0#8 0#8 0#8

theorem EncodesRow.encodeByte (b : Byte) : EncodesRow.Statement (.encodeByte b) := by
  simpa [EncodesRow.Statement, encode, tableRow] using packWord_mask 0xFF#8 0x2 0#8 0#8 b 0xFF#8 0xFF#8 0#8

theorem EncodesRow.latch : EncodesRow.Statement .latch := by
  unfold EncodesRow.Statement; decide

theorem EncodesRow.arm : EncodesRow.Statement .arm := by
  unfold EncodesRow.Statement; decide

end Sys2Proof.Laws
end

