-- ==== Sys2Proof/Tests/Slice0.lean ====
section
/-! SUPPORT. The model's own tests. Expected values are those of spec/95_test_vectors.md and of the rules' worked
examples; the witnesses show that the hypotheses of each statement can be met. -/

namespace Sys2Proof.Tests

open Sys2Proof.Machine

/-- REF, the spec's reference codes for examples (D25), at a chosen DIV and hold. -/
def ref (div hold : Nat) : Params where
  fClk := 24000000
  div := div
  code0 := 0xC0
  code1 := 0xF8
  latchHoldCycles := hold
  tResetMin := 0

/-- The next state of a result, if it is one. -/
def nextOf : Result → Option State
  | .next t => some t
  | .fault _ => none
  | .refused _ => none

/-- One cycle from `s` at REF, DIV = 5, LATCH_HOLD_CYCLES = 2400. -/
def stepRef (s : State) : Option State := nextOf (stepAt (ref 5 2400) s)

/-- `s` with the host presenting `w` and nothing after it. -/
def offering (w : Word) (s : State) : State := { s with host := [.send w] }

/-- After a LATCH has completed: unarmed, frame IDLE. -/
def unarmed : State :=
  { State.reset with
    arch := { State.reset.arch with pinMode := .gpio }
    sequencer := { State.reset.sequencer with op := .latch } }

/-- An ENCODE_BYTE 0xA5 in its SEND phase, three symbols handed over, the third just shifting. -/
def sending : State :=
  { State.reset with
    arch := { State.reset.arch with frame := .transmitting }
    sequencer := { State.reset.sequencer with busy := true, op := .enc, phase := .send, h := ⟨0xA5, 0, 0⟩, nSym := 9, symIdx := 3 }
    serializer := { txbufFull := false, txbuf := 0xF8, sh := 0xF8, shBits := 8, divCnt := 0 } }

/-- The same command in its DRAIN phase, the IDLE just loaded. -/
def draining : State :=
  { sending with
    sequencer := { sending.sequencer with phase := .drain, symIdx := 9 }
    serializer := { txbufFull := false, txbuf := 0, sh := 0, shBits := 8, divCnt := 0 } }

/-- A LATCH hold in its last cycle. -/
def holding : State :=
  { unarmed with sequencer := { unarmed.sequencer with busy := true, latchCnt := 1 } }

/-! ### Well-formedness: one ill-formed parameter set per check, each refused -/

theorem test_wf_accepts_instr : (Instr.writeColor 0xFF 0 0xFF).wf = true := by decide
theorem test_wf_accepts_ref : (ref 5 2400).codesOk = true ∧ (ref 5 2400).countersOk = true := by decide
theorem test_wf_refuses_equal_codes : { ref 5 2400 with code1 := 0xC0 }.codesOk = false := by decide
theorem test_wf_refuses_swapped_codes : { ref 5 2400 with code0 := 0xF8, code1 := 0xC0 }.codesOk = false := by decide
theorem test_wf_refuses_two_runs_code0 : { ref 5 2400 with code0 := 0xA0 }.codesOk = false := by decide
theorem test_wf_refuses_two_runs_code1 : { ref 5 2400 with code1 := 0xF1 }.codesOk = false := by decide
theorem test_wf_refuses_no_high_part : { ref 5 2400 with code0 := 0x00 }.codesOk = false := by decide
theorem test_wf_refuses_no_low_part : { ref 5 2400 with code1 := 0xFF }.codesOk = false := by decide
theorem test_wf_refuses_div_zero : (ref 0 2400).countersOk = false := by decide
theorem test_wf_refuses_no_hold : (ref 5 0).countersOk = false := by decide
theorem test_wf_refuses_no_clock : { ref 5 2400 with fClk := 0 }.holdOk = false := by simp [Params.holdOk]

/-- A hold of 2400 cycles at 24 MHz is 100 microseconds: shorter than a T_RESET_MIN of 280 (R146). -/
theorem test_wf_refuses_short_hold : { ref 5 2400 with tResetMin := 280 / 1000000 }.holdOk = false := by
  simp only [Params.holdOk, Params.seconds, ref, Bool.and_eq_false_iff]
  norm_num

/-- The same hold satisfies a T_RESET_MIN of 50 microseconds, so the set is well formed:
a witness for OnlyLatchCommitsFrame. -/
theorem test_wf_accepts_long_hold : { ref 5 2400 with tResetMin := 50 / 1000000 }.wf = true := by
  have hc : { ref 5 2400 with tResetMin := 50 / 1000000 }.codesOk = true := by decide
  have hn : { ref 5 2400 with tResetMin := 50 / 1000000 }.countersOk = true := by decide
  have hh : { ref 5 2400 with tResetMin := 50 / 1000000 }.holdOk = true := by
    simp only [Params.holdOk, Params.seconds, ref, Bool.and_eq_true]
    norm_num
  simp [Params.wf, hc, hn, hh]

/-! ### Decoding: words written out bit by bit from R71, and the vectors V-D1 to V-D24 -/

theorem test_decode_writeColor_bits :
    decode 0b00010000000100100011010001010110 = some (.writeColor 0x12 0x34 0x56) := by decide
theorem test_decode_encodeByte_bits : decode 0b00100000000000000000000000110100 = some (.encodeByte 0x34) := by decide
theorem test_decode_latch_bits : decode 0b00110000000000000000000000000000 = some .latch := by decide
theorem test_decode_arm_bits : decode 0b01000000000000000000000000000000 = some .arm := by decide
theorem test_decode_legal_vectors :
    [0x10FF0000, 0x1000FF00, 0x100000FF, 0x10000000, 0x10FFFFFF, 0x200000FF, 0x20000000].map decode =
      [some (.writeColor 0xFF 0 0), some (.writeColor 0 0xFF 0), some (.writeColor 0 0 0xFF), some (.writeColor 0 0 0),
        some (.writeColor 0xFF 0xFF 0xFF), some (.encodeByte 0xFF), some (.encodeByte 0)] := by decide
theorem test_decode_illegal_vectors :
    ([0x00000000, 0x0FFFFFFF, 0x11000000, 0x1F123456, 0x20010034, 0x20800000, 0x30000001, 0x30800000, 0x40000100,
      0x50000000, 0x80000000, 0xF0000000, 0xFFFFFFFF].all fun w => (decode w).isNone) = true := by decide
theorem test_decodeTableWord_latch : decodeTableWord 32 0x30000000 = some .latch := by decide

/-! ### The assembler (R78, R79; programs P2 and P3 of 95_test_vectors.md) -/

theorem test_assemble_program :
    assembleText "WRITE_COLOR 0x12, 0x34, 0x56 ; a pixel\n\nlatch\n Arm ; SHOW\nENCODE_BYTE 52\n.word 0x00000000".toList =
      some [0x10123456, 0x30000000, 0x40000000, 0x20000034, 0x00000000] := by decide
/-- R162's worked example as it is written, and P3's spelling of the same word. Any other '_' in the
operand is refused (log 19), and a byte operand has digits alone (R78). -/
theorem test_assemble_grouped_word :
    assembleText ".word 0x0000_0000".toList = some [0x00000000] ∧ assembleText ".word 0x00000000".toList = some [0x00000000] ∧
      assembleText ".word 0x1234_abCD".toList = some [0x1234ABCD] ∧
      ([".word 0x000_0", ".word _0x0", ".word 0x_", ".word 0x0000_000g", ".word 0x0000__000", "ENCODE_BYTE 0x1_2"].all
        fun l => (assembleText l.toList).isNone) = true := by decide
theorem test_assemble_refuses :
    (["ENCODE_BYTE 256", "ENCODE_BYTE", "LATCH 0", "WRITE_COLOR 1, 2", "ENCODE_BYTE 0x123", "NOP"].all
      fun l => (assembleText l.toList).isNone) = true := by decide

/-! ### Symbols (V-C, V-E, V-W under REF) -/

theorem test_encSeq_A5 :
    encSeq (ref 5 2400) 0xA5 = [0xF8, 0xC0, 0xF8, 0xC0, 0xC0, 0xF8, 0xC0, 0xF8, 0x00] := by decide
theorem test_encSeq_01 : encSeq (ref 5 2400) 0x01 = [0xC0, 0xC0, 0xC0, 0xC0, 0xC0, 0xC0, 0xC0, 0xF8, 0x00] := by decide
theorem test_pixelSeq_123456 :
    pixelSeq (ref 5 2400) 0x12 0x34 0x56 =
      [0xC0, 0xC0, 0xF8, 0xF8, 0xC0, 0xF8, 0xC0, 0xC0, 0x00, 0xC0, 0xC0, 0xC0, 0xF8, 0xC0, 0xC0, 0xF8, 0xC0, 0x00,
       0xC0, 0xF8, 0xC0, 0xF8, 0xC0, 0xF8, 0xF8, 0xC0, 0x00] := by decide

/-! ### One step of each command -/

/-- V-E3 at its acceptance: nine Sym events, and STATUS shows BUSY, FRAME and TX_READY. -/
theorem test_encodeByte_80 :
    (stepRef (offering 0x20000080 State.reset)).map (fun t => (t.arch.obs, t.status)) =
      some ([0xF8, 0xC0, 0xC0, 0xC0, 0xC0, 0xC0, 0xC0, 0xC0, 0x00].map .sym, 0x13) := by decide

/-- V-U2: unarmed, the Fault comes first and the symbols are Shadow; frame and pin stay. -/
theorem test_encodeByte_unarmed :
    (stepRef (offering 0x20000000 unarmed)).map (fun t => (t.arch.obs, t.status)) =
      some (.fault .unarmedWrite :: [0xC0, 0xC0, 0xC0, 0xC0, 0xC0, 0xC0, 0xC0, 0xC0, 0x00].map .shadow, 0x215) := by decide

/-- V-W7: the channels are held in wire order, and the first symbols are Green's. -/
theorem test_writeColor_wire_order :
    (stepRef (offering 0x10018000 State.reset)).map (fun t => (t.sequencer.h, t.sequencer.nSym, t.arch.obs.take 2)) =
      some (⟨0x80, 0x01, 0x00⟩, 27, [.sym 0xF8, .sym 0xC0]) := by decide

/-- V-L2: STATUS during the hold is 0x15. -/
theorem test_latch_from_reset :
    (stepRef (offering 0x30000000 State.reset)).map (fun t => (t.arch.obs, t.status, t.sequencer.latchCnt)) =
      some ([.hold 2400], 0x15, 2400) := by decide

/-- V-L1: STATUS after the hold is 0x14, and the pin is not re-armed. -/
theorem test_latch_last_cycle : (stepRef holding).map State.status = some 0x14 := by decide

/-- V-A1: STATUS after ARM is the reset value. -/
theorem test_arm_after_latch :
    (stepRef (offering 0x40000000 unarmed)).map (fun t => (t.arch.obs, t.status)) = some ([.armed], 0x10) := by decide

/-- V-A3: an ARM presented while a command executes is not taken, and stays presented. -/
theorem test_arm_waits_while_busy :
    (stepRef (offering 0x40000000 sending)).map (fun t => (t.arch.obs, t.arch.pinMode, t.host)) =
      some ([], .serial, [.send 0x40000000]) := by decide

/-- V-I3: an illegal word after a LATCH sets STATUS bit 8 and starts no hold. -/
theorem test_illegal_word :
    (stepRef (offering 0x30000001 unarmed)).map (fun t => (t.arch.obs, t.status)) =
      some ([.fault .illegalCommand], 0x114) := by decide

/-- R166: a block reset wins over a command presented in the same cycle. -/
theorem test_reset_wins :
    stepRef { holding with host := [.drive true true 0x20000080] } = some State.reset := by decide

/-- R161: cause codes and STATUS bits. -/
theorem test_error_codes :
    [ErrorKind.illegalCommand, ErrorKind.unarmedWrite].map (fun k => (k.causeCode, k.statusBit)) = [(1, 8), (2, 9)] := by decide

/-! ### One cycle of the sequencer and serializer (R106 to R108) -/

/-- SEND hands over SymAt(3), the symbol of bit 4 of 0xA5 = 1010_0101, which is 0. -/
theorem test_send_hands_over :
    (stepRef sending).map (fun t => (t.serializer.txbuf, t.serializer.txbufFull, t.sequencer.symIdx)) =
      some (0xC0, true, 4) := by decide

theorem test_drain_completes :
    (stepRef draining).map (fun t => (t.sequencer.busy, t.serializer.divCnt, t.status)) = some (false, 1, 0x12) := by decide

/-- A symbol whose last bit ends is replaced at the same edge by the buffered one. -/
theorem test_serializer_reload :
    serializerEdge (ref 5 2400) none ⟨true, 0xF8, 0x80, 1, 4⟩ = ⟨false, 0xF8, 0xF8, 8, 0⟩ := by decide

/-- A symbol index past the 27th has no holding register: the model's one fault, in a state no run reaches. -/
theorem test_symbol_index_out_of_range :
    (match stepAt (ref 5 2400) { sending with sequencer := { sending.sequencer with symIdx := 27, nSym := 28 } } with
      | .fault .holdingIndexOutOfRange => true
      | .next _ => false
      | .refused _ => false) = true := by decide

/-- The machine itself runs the first command after reset. -/
theorem test_step_runs_latch_after_reset :
    (nextOf (step (State.reset.withFetchWord 32 0x30000000))).map (fun t => (t.arch.pinMode, t.sequencer.busy)) =
      some (.gpio, true) := by decide

/-! ### Witnesses: the hypotheses of each statement can be met -/

/-- OpcodeTableRowsDisjoint, EncodeDecodeRoundTrip: a word that decodes and matches a row, one row with itself. -/
theorem witness_word_of_a_row :
    decode 0x20000034 = some (.encodeByte 0x34) ∧
      ∃ r ∈ opcodeTable, r.holds 0x20000034 = true := by decide

/-- IllegalWordClasses: an illegal word accepted by a ready block. -/
theorem witness_illegal_word_accepted :
    (offering 0x50000000 unarmed).acceptedWord = some 0x50000000 ∧ decode 0x50000000 = none := by decide

/-- AssemblerNeverTruncates: operands at both ends of each range. -/
theorem witness_assembler_ranges :
    (255 < 256 ∧ 256 ≤ 256 ∧ 2 ^ 32 ≤ 2 ^ 32) ∧ (AsmStmt.writeColor 255 0 255).inRange = true := by decide

/-- AssemblerNeverTruncates, PseudoInstructionExpansions: what the assembler reads of each of the seven mnemonics. -/
theorem witness_parsed_statements :
    parseStmt "write_color".toList ["255".toList, "0".toList, "0xfF".toList] = some (.writeColor 255 0 255) ∧
      parseStmt "encode_byte".toList ["255".toList] = some (.encodeByte 255) ∧
      parseStmt "latch".toList [] = some .latch ∧ parseStmt "arm".toList [] = some .arm ∧
      parseStmt "pixel_off".toList [] = some .pixelOff ∧ parseStmt "show".toList [] = some .showFrame ∧
      parseStmt ".word".toList ["0xffffffff".toList] = some (.word 0xFFFFFFFF) := by decide

/-- PseudoInstructionExpansions: a statement other than SHOW, in range. -/
theorem witness_plain_statement : AsmStmt.pixelOff ≠ .showFrame ∧ AsmStmt.pixelOff.inRange = true := by decide

/-- BlockResetFromAnyState, BlockResetAbandonsCommand: rst in the middle of a command, with a word presented in the
same cycle, which is no command (R70), and pauses and another reset to come. -/
theorem witness_reset_in_command :
    let s := { sending with host := [.drive true true 0x40000000, .pause, .drive true false 0, .pause] }
    s.rst = true ∧ noMoreCommands s.host = true := by decide

/-- EncodeByteAccepted, WriteColorAccepted, LatchAccepted, ArmAccepted, GpioLevelNeverHigh: a ready block, armed and
unarmed. -/
theorem witness_ready :
    State.reset.sequencer.busy = false ∧ State.reset.arch.pinMode = .serial ∧
      unarmed.sequencer.busy = false ∧ unarmed.arch.pinMode = .gpio := by decide

/-- InstructionFrames: each clause has an instruction that meets it. -/
theorem witness_frames :
    (∃ t, exec .arm unarmed = .next t) ∧ (∃ t, exec .latch unarmed = .next t) ∧
      (∃ t, exec (.encodeByte 0) { unarmed with arch := { unarmed.arch with errUnarmed := true } } = .next t) ∧
      isEnc (.encodeByte 0) = true ∧ isEnc .latch = false :=
  ⟨⟨_, rfl⟩, ⟨_, rfl⟩, ⟨_, rfl⟩, rfl, rfl⟩

/-- NoCommandTakenWhileBusy: busy, no reset, a word held by the host. -/
theorem witness_busy_with_word :
    let s := offering 0x40000000 sending
    s.sequencer.busy = true ∧ s.rst = false ∧ (∃ t, stepAt (ref 5 2400) s = .next t) ∧ s.host = .send 0x40000000 :: [] :=
  ⟨rfl, rfl, ⟨_, rfl⟩, rfl⟩

/-- StepRunsDecodedInstruction: a presented word at a ready block, and a fetch word that decodes. -/
theorem witness_presented_word :
    (offering 0x40000000 unarmed).rst = false ∧ (offering 0x40000000 unarmed).cmdValid = true ∧
      (offering 0x40000000 unarmed).sequencer.busy = false ∧
      decode (offering 0x40000000 unarmed).cmdData = some .arm ∧
      decodeTableWord 32 0x10123456 = some (.writeColor 0x12 0x34 0x56) := by decide

/-- IllegalWordEffect, AtMostOneErrorPerCommand: an illegal word is accepted. -/
theorem witness_accepts_illegal :
    (offering 0x50000000 unarmed).acceptsIllegal = true ∧ (offering 0x50000000 unarmed).rst = false ∧
      ∃ t, stepAt (ref 5 2400) (offering 0x50000000 unarmed) = .next t :=
  ⟨by decide, rfl, ⟨_, rfl⟩⟩

/-- ErrorFlagsSticky, PinModeWrittenOnlyByLatchAndArm, FrameTransitions: a step without and a step with a reset. -/
theorem witness_steps :
    (∃ t, stepAt (ref 5 2400) (offering 0x20000080 unarmed) = .next t) ∧ (offering 0x20000080 unarmed).rst = false ∧
      (∃ t, stepAt (ref 5 2400) { unarmed with host := [.drive true false 0] } = .next t) ∧
      { unarmed with host := [.drive true false 0] }.rst = true :=
  ⟨⟨_, rfl⟩, rfl, ⟨_, rfl⟩, rfl⟩

/-- GpioLevelNeverHigh, PinSwitchHasNoGlitch, LineLowOutsideEncCommands' third clause: a run from reset into GPIO mode. -/
theorem witness_run_to_gpio :
    (ref 5 2400).countersOk = true ∧
      ∃ t, cycles (stepAt (ref 5 2400)) 1 (startWith [.send 0x30000000]) = .next t ∧
        t.arch.pinMode = .gpio ∧ t.encExecuting = false :=
  ⟨by decide, _, rfl, rfl, rfl⟩

/-- SymAtFollowsSequence: the last index of a WRITE_COLOR. -/
theorem witness_symAt :
    isEnc (.writeColor 1 2 3) = true ∧ State.reset.sequencer.busy = false ∧
      ∃ t, execAt (ref 5 2400) (.writeColor 1 2 3) State.reset = .next t ∧ 26 < t.sequencer.nSym :=
  ⟨rfl, rfl, _, rfl, by decide⟩

/-- SendPhaseHandsOverWhenReady: the phase with the buffer empty and a symbol left, and with the buffer full. -/
theorem witness_send :
    sending.rst = false ∧ sending.encExecuting = true ∧ sending.sequencer.phase = .send ∧ sending.txReady = true ∧
      symAt (ref 5 2400) sending.sequencer.h sending.sequencer.symIdx = some 0xC0 ∧
      { sending with serializer := { sending.serializer with txbufFull := true } }.txReady = false := by decide

/-- DrainPhaseCompletesWhenReady. -/
theorem witness_drain :
    draining.rst = false ∧ draining.encExecuting = true ∧ draining.sequencer.phase = .drain := by decide

/-- SerializerEdgeCases: each clause at a boundary of its range, DIV = 5; and a write by the sequencer. -/
theorem witness_serializer_cases :
    (0 < 1 ∧ 3 + 1 < (ref 5 2400).div) ∧ (1 < 2 ∧ 4 + 1 = (ref 5 2400).div) ∧
      (0 < (ref 5 2400).div ∧ 4 < (ref 5 2400).div) ∧ txWrite (ref 5 2400) sending = some 0xC0 := by decide

/-- LoadedSymbolLeavesMsbFirst: the last cycle of a symbol. -/
theorem witness_loaded_symbol :
    1 ≤ (ref 5 2400).div ∧ sending.serializer.shBits = 8 ∧ sending.serializer.divCnt = 0 ∧
      (List.replicate 39 (none : Option Byte)).length < 8 * (ref 5 2400).div := by decide

/-- DataSymbolIsOneHighPulse, LongestLowInsideCommand: the REF table, and the last start inside an ENCODE_BYTE. -/
theorem witness_codes :
    (ref 1 7).codesOk = true ∧ isEnc (.encodeByte 0) = true ∧
      57 + ((8 - (ref 1 7).h0) * (ref 1 7).div + 8 * (ref 1 7).div) <
        (wave (ref 1 7) (instrSymbols (ref 1 7) (.encodeByte 0))).length := by decide

/-- EncBusyDuration, EncWaveform: an armed ready block with an empty serializer, and a host that presents other words
meanwhile; k and n at both ends of their ranges. -/
theorem witness_enc_start :
    let p := ref 5 2400
    let s := { State.reset with host := .send (encode (.encodeByte 0xA5)) :: [.send 0x40000000, .pause] }
    1 ≤ p.div ∧ isEnc (.encodeByte 0xA5) = true ∧ s.sequencer.busy = false ∧ s.serializer.isQuiet p = true ∧
      s.arch.pinMode = .serial ∧ resetFree [.send 0x40000000, .pause] = true ∧ idleDelay p s.serializer = 0 ∧
      encBusyCycles p (instrSymbols p (.encodeByte 0xA5)).length = 323 ∧ 1 ≤ 324 ∧ 324 ≤ 323 + 1 := by decide

/-- An armed ready block one cycle after a completion: 8·DIV - 1 = 39 cycles of an IDLE are left (R112). -/
def idling : State := { State.reset with serializer := ⟨false, 0, 0, 8, 1⟩ }

/-- EncBusyDuration, EncWaveform, ColourWaveEqualsThreeByteWaves: a quiet serializer still shifting an IDLE. -/
theorem witness_enc_over_idle :
    let p := ref 5 2400
    1 ≤ p.div ∧ idling.sequencer.busy = false ∧ idling.arch.pinMode = .serial ∧ idling.serializer.isQuiet p = true ∧
      idling.serializer.cyclesLeft p = 39 ∧ idleDelay p idling.serializer = 36 := by decide

/-- R185 at k = 0: accepted at the first edge after a completion, the next command's first symbol follows the IDLE at
once, 39 low cycles after its acceptance cycle began. -/
theorem test_gapless_after_idle :
    let p := ref 5 2400
    let s := { idling with host := [.send (encode (.encodeByte 0xFF))] }
    lineTrace p 41 s = List.replicate 39 false ++ [true, true] := by decide

/-- GapBetweenEncCommands: a start state with the statement's host, one cycle over the slack at DIV = 1. -/
theorem witness_gap :
    let p := ref 1 7
    let s := startWith (.send (encode (.encodeByte 1)) ::
      (List.replicate (encBusyCycles p (instrSymbols p (.encodeByte 1)).length + 5) HostMove.pause ++
        [.send (encode (.encodeByte 2))]))
    1 ≤ p.div ∧ isEnc (.encodeByte 1) = true ∧ isEnc (.encodeByte 2) = true ∧ s.sequencer.busy = false ∧
      s.serializer.isEmpty = true ∧ s.arch.pinMode = .serial ∧ extraLow p 5 = 1 ∧
      s.host = .send (encode (.encodeByte 1)) ::
        (List.replicate (encBusyCycles p (instrSymbols p (.encodeByte 1)).length + 5) HostMove.pause ++
          [.send (encode (.encodeByte 2))]) :=
  ⟨by decide, rfl, rfl, rfl, rfl, rfl, rfl, rfl⟩

/-- GpioLevelNeverHigh, PinSwitchHasNoGlitch, AtMostOneErrorPerCommand: a step that accepts LATCH, one that accepts
another word, one that accepts none. -/
theorem witness_latch_step :
    (offering 0x30000000 State.reset).acceptedInstr = some .latch ∧
      (∃ t, stepAt (ref 5 2400) (offering 0x30000000 State.reset) = .next t) ∧
      (offering 0x40000000 unarmed).acceptedInstr ≠ some .latch ∧
      (∃ t, stepAt (ref 5 2400) (offering 0x40000000 unarmed) = .next t) ∧
      sending.acceptedWord = none ∧ sending.rst = false ∧ (∃ t, stepAt (ref 5 2400) sending = .next t) :=
  ⟨by decide, ⟨_, rfl⟩, by decide, ⟨_, rfl⟩, by decide, rfl, ⟨_, rfl⟩⟩

/-- UnarmedEncRunsSilently: a host that presents an ARM from the next cycle on, at the last n of the statement. -/
theorem witness_unarmed_enc :
    let p := ref 5 2400
    let s := { unarmed with host := .send (encode (.encodeByte 0xA5)) :: [.send 0x40000000] }
    isEnc (.encodeByte 0xA5) = true ∧ s.sequencer.busy = false ∧ s.arch.pinMode = .gpio ∧
      s.arch.gpioLevel = false ∧ resetFree [.send 0x40000000] = true ∧ s.serializer.isQuiet p = true ∧
      324 ≤ encBusyCycles p (instrSymbols p (.encodeByte 0xA5)).length + idleDelay p s.serializer + 1 := by decide

/-- LatchHoldsExactly, EarliestBitAfterLatch: a hold of one cycle, at both ends of k. -/
theorem witness_latch_start :
    let p := ref 5 1
    let s := startWith (promptHost [encode .latch, encode .arm, encode (.encodeByte 1)])
    1 ≤ p.div ∧ 1 ≤ p.latchHoldCycles ∧ s.sequencer.busy = false ∧ s.serializer.isEmpty = true ∧
      s.host = .send (encode .latch) :: [.send (encode .arm), .send (encode (.encodeByte 1))] ∧
      resetFree [.send (encode .arm), .send (encode (.encodeByte 1))] = true ∧ 2 ≤ p.latchHoldCycles + 1 := by decide

/-- The reset state meets the invariant at REF. -/
theorem reset_inv_ref : Inv (ref 5 2400) State.reset where
  nSym_values := by decide
  symIdx_le := by decide
  busy_op := by decide
  send_left := by decide
  drain_done := by decide
  latchCnt_le := by decide
  hold_runs := by decide
  shBits_le := by decide
  divCnt_lt := by decide
  divCnt_zero := by decide
  quiet := by decide
  gpio_low := by decide
  frame_armed := by decide
  illegal_recorded := by decide
  unarmed_recorded := by decide

/-- UnspecifiedResetContentsUnobservable: two reset states that differ in H, txbuf and sh, and a step of the first. -/
theorem witness_unspecified_contents :
    AgreeWhereRead (startWith [.send 0x20000080]) (resetWith ⟨1, 2, 3⟩ 4 5 [.send 0x20000080]) ∧
      startWith [.send 0x20000080] ≠ resetWith ⟨1, 2, 3⟩ 4 5 [.send 0x20000080] ∧
      Inv (ref 5 2400) (startWith [.send 0x20000080]) ∧
      ∃ t, stepAt (ref 5 2400) (startWith [.send 0x20000080]) = .next t :=
  ⟨⟨rfl, rfl, rfl, nofun, rfl, nofun, nofun⟩, by decide, inv_withHost reset_inv_ref _, _, rfl⟩

/-- The DRAIN state meets the invariant. -/
theorem draining_inv : Inv (ref 5 2400) draining where
  nSym_values := by decide
  symIdx_le := by decide
  busy_op := by decide
  send_left := by decide
  drain_done := by decide
  latchCnt_le := by decide
  hold_runs := by decide
  shBits_le := by decide
  divCnt_lt := by decide
  divCnt_zero := by decide
  quiet := by decide
  gpio_low := by decide
  frame_armed := by decide
  illegal_recorded := by decide
  unarmed_recorded := by decide

/-- CompletionLeavesOnlyIdle, StepKeepsInvariant, BlockNeverStops, LoadedBytesAreRecordedSymbols: a completing step
from a state that meets the invariant. -/
theorem witness_completion :
    (ref 5 2400).countersOk = true ∧ Inv (ref 5 2400) draining ∧ draining.rst = false ∧
      draining.encExecuting = true ∧ resetFree draining.host = true ∧
      ∃ t, stepAt (ref 5 2400) draining = .next t ∧ t.sequencer.busy = false :=
  ⟨by decide, draining_inv, rfl, rfl, rfl, _, rfl, rfl⟩

/-- LineLowOutsideEncCommands: a state and a step in which no ENC command executes, the IDLE being still on the line. -/
theorem witness_line_low :
    Inv (ref 5 2400) draining ∧ (∃ t, stepAt (ref 5 2400) draining = .next t ∧ t.encExecuting = false ∧
      0 < t.serializer.shBits) ∧ Inv (ref 5 2400) (startWith []) ∧ (startWith []).encExecuting = false :=
  ⟨draining_inv, ⟨_, rfl, rfl, by decide⟩, inv_withHost reset_inv_ref _, rfl⟩

/-- StalledSerializerHangs: a serializer that never empties its buffer, and one of R108 with a full buffer. -/
theorem witness_stall :
    let ser : Option Byte → Serializer → Serializer := fun _ z => z
    let s := { sending with serializer := { sending.serializer with txbufFull := true } }
    (∀ w z, z.txbufFull = true → (ser w z).txbufFull = true) ∧ s.encExecuting = true ∧ s.txReady = false ∧
      resetFree s.host = true ∧ s.serializer.shBits ≤ 8 ∧ s.serializer.divCnt < (ref 5 2400).div :=
  ⟨fun _ _ h => h, by decide, by decide, by decide, by decide, by decide⟩

/-- The reset state of the reference configuration meets the invariant: StepKeepsInvariant's second clause. -/
theorem reset_inv_reference : Inv Config.params State.reset where
  nSym_values := by decide
  symIdx_le := by decide
  busy_op := by decide
  send_left := by decide
  drain_done := by decide
  latchCnt_le := by decide
  hold_runs := by decide
  shBits_le := by decide
  divCnt_lt := by decide
  divCnt_zero := by decide
  quiet := by decide
  gpio_low := by decide
  frame_armed := by decide
  illegal_recorded := by decide
  unarmed_recorded := by decide

/-- StepKeepsInvariant, BlockNeverStops, at the machine's own step. -/
theorem witness_machine_step : Inv Config.params State.reset ∧ ∃ t, step State.reset = .next t :=
  ⟨reset_inv_reference, _, rfl⟩

/-- CyclesRefineTransactions, SymbolOrderIsAcceptanceOrder, ProtocolHostIsFaultFree: a run that accepts a LATCH. -/
theorem witness_run :
    let p := ref 5 2400
    let s := startWith (promptHost [0x30000000])
    resetFree s.host = true ∧ s.arch.faultFree = true ∧ (∃ t, cycles (stepAt p) 2 s = .next t) ∧
      keepsProtocol (decide (s.arch.pinMode = .serial)) (acceptedWords p 2 s) = true :=
  ⟨by decide, by decide, ⟨_, rfl⟩, by decide⟩

/-- R192: a host that may still pause or reset has no more commands; one with a word to come has. -/
theorem test_run_over :
    (startWith [.pause]).runOver = true ∧ (startWith [.drive true true 0x40000000]).runOver = true ∧
      (startWith [.pause, .send 0x40000000]).runOver = false ∧ (startWith [.drive false true 0]).runOver = false ∧
      sending.runOver = false ∧ idling.runOver = false := by decide

/-- PromptRunsEnd: no word at all, where the bound is the IDLE alone; the statement asks only for positive parameters. -/
theorem witness_prompt_run : (ref 5 2400).countersOk = true ∧ (startWith (promptHost [])).runOver = true := by decide

/-- EndOfRunIsFinal: a finished run whose host pauses next, and one whose host resets next. -/
theorem witness_run_over :
    let s := startWith [.pause, .drive true false 0]
    let s' := startWith [.drive true false 0, .pause]
    (Inv (ref 5 2400) s ∧ s.runOver = true ∧ s.rst = false) ∧ (Inv (ref 5 2400) s' ∧ s'.runOver = true ∧ s'.rst = true) :=
  ⟨⟨inv_withHost reset_inv_ref _, by decide, rfl⟩, ⟨inv_withHost reset_inv_ref _, by decide, rfl⟩⟩

end Sys2Proof.Tests
end

section
/-! The refinement of R10: a cycle of the block is a run of the transaction level over the words the cycle accepts,
none or one, and a run of cycles is the run over all of them, in order. -/

namespace Sys2Proof.Machine

/-- `stepAt_arch` in the form the refinement composes: one cycle is a run of the transaction level. -/
theorem stepAt_arch_eq_foldl {p : Params} {s t : State} (h : stepAt p s = .next t) (hr : s.rst = false) :
    t.arch = s.acceptedWord.toList.foldl (transact p) s.arch := by
  rw [stepAt_arch h hr]
  cases s.acceptedWord with
  | none => rfl
  | some w => rfl

/-- The words accepted in a run are those of its first cycle, then those of the run from the next state. -/
theorem acceptedWords_succ {p : Params} {n : Nat} {s t : State} (h : stepAt p s = .next t) :
    acceptedWords p (n + 1) s = s.acceptedWord.toList ++ acceptedWords p n t :=
  traceOf_succ _ h

/-- Settles O51, by induction on the number of cycles: the first cycle performs the transaction of its accepted word,
if it has one, and leaves a host without resets, from which the rest of the run refines its own words. -/
theorem cyclesRefineTransactions : Obligations.CyclesRefineTransactions := by
  intro p s t n
  induction n generalizing s with
  | zero =>
    intro _ hrun
    cases hrun
    rfl
  | succ n ih =>
    intro hfree hrun
    obtain ⟨u, hstep, hrest⟩ := cycles_succ_cases hrun
    calc t.arch
      _ = (acceptedWords p n u).foldl (transact p) u.arch := ih u (stepAt_resetFree hstep hfree) hrest
      _ = (s.acceptedWord.toList ++ acceptedWords p n u).foldl (transact p) s.arch := by
        rw [List.foldl_append, stepAt_arch_eq_foldl hstep (rst_of_resetFree hfree)]
      _ = (acceptedWords p (n + 1) s).foldl (transact p) s.arch := by rw [acceptedWords_succ hstep]

end Sys2Proof.Machine
end

section
/-! SUPPORT. The next state of a cycle, as one equation per kind of cycle (reset, acceptance, neither), and the moves
the sequencer can make. The later sections reason from these. -/

namespace Sys2Proof.Machine

/-! ### The kinds of cycles -/

/-- The sequencer after a ready block has taken a command (R106, R140, R147). -/
def instrStart (p : Params) : Instr → Sequencer → Sequencer
  | .writeColor r g b, q => q.startEnc ⟨g, r, b⟩ Config.symsPerPixel
  | .encodeByte b, q => q.startEnc { q.h with h0 := b } Config.symsPerByte
  | .latch, q => q.startHold p.latchHoldCycles
  | .arm, q => q

/-- The sequencer after a ready block has taken a word; an illegal word starts nothing (R162). -/
def wordStart (p : Params) (w : Word) (q : Sequencer) : Sequencer :=
  match decode w with
  | some i => instrStart p i q
  | none => q

/-- The edge at which the word `w` is accepted. -/
def acceptEdge (p : Params) (w : Word) (s : State) : State where
  arch := transact p s.arch w
  sequencer := wordStart p w s.sequencer
  serializer := serializerEdge p none s.serializer
  host := s.host.tail

theorem execAt_eq_of_ready (p : Params) (i : Instr) {s : State} (h : s.sequencer.busy = false) :
    execAt p i s =
      .next { s with arch := transactInstr p i s.arch, sequencer := instrStart p i s.sequencer } := by
  cases i with
  | writeColor r g b => rw [execAt, writeColorAt, whenReady_ready h]; rfl
  | encodeByte b => rw [execAt, encodeByteAt, whenReady_ready h]; rfl
  | latch => rw [execAt, latchAt, whenReady_ready h]; rfl
  | arm => rw [execAt, armAt, whenReady_ready h]; rfl

theorem takeWord_eq_of_ready (p : Params) (w : Word) {s : State} (h : s.sequencer.busy = false) :
    takeWord (execAt p) w s =
      .next { s with arch := transact p s.arch w, sequencer := wordStart p w s.sequencer } := by
  unfold takeWord transact wordStart
  cases decode w with
  | none => exact whenReady_ready h
  | some i => exact execAt_eq_of_ready p i h

theorem blockReset_eq_startWith (s : State) : blockReset s = startWith s.host.tail := rfl

theorem rst_of_accepts {s : State} (h : s.accepts = true) : s.rst = false := ((accepts_iff s).mp h).1

theorem ready_of_accepts {s : State} (h : s.accepts = true) : s.sequencer.busy = false := ((accepts_iff s).mp h).2.2

theorem stepAt_of_rst (p : Params) {s : State} (h : s.rst = true) :
    stepAt p s = .next (startWith s.host.tail) := by
  simp [stepAt, stepVia, h, blockReset_eq_startWith]

theorem stepAt_of_accepts (p : Params) {s : State} (h : s.accepts = true) :
    stepAt p s = .next (acceptEdge p s.cmdData s) := by
  simp [stepAt, stepVia, rst_of_accepts h, h, takeWord_eq_of_ready p s.cmdData (ready_of_accepts h), finishAccept,
    acceptEdge]

theorem stepAt_of_waits {p : Params} {s : State} (hr : s.rst = false) (ha : s.accepts = false)
    (hw : handsOver s.txReady s.sequencer = true → ∃ v, txWrite p s = some v) :
    stepAt p s = .next (clockEdge (serializerEdge p) (txWrite p s) s) := by
  have hgo : (handsOver s.txReady s.sequencer && (txWrite p s).isNone) = false := by
    cases hh : handsOver s.txReady s.sequencer with
    | false => rfl
    | true =>
      obtain ⟨v, hv⟩ := hw hh
      simp [hv]
  simp [stepAt, stepVia, advance, hr, ha, hgo]

/-- `stepAt_cases` with every next state written out. -/
theorem stepAt_next_cases {p : Params} {s t : State} (h : stepAt p s = .next t) :
    (s.rst = true ∧ t = startWith s.host.tail) ∨
    (s.accepts = true ∧ t = acceptEdge p s.cmdData s) ∨
    (s.rst = false ∧ s.accepts = false ∧ t = clockEdge (serializerEdge p) (txWrite p s) s ∧
      (handsOver s.txReady s.sequencer = true → ∃ v, txWrite p s = some v)) := by
  rcases stepAt_cases h with hreset | ⟨-, ha, -⟩ | hwaits
  · exact .inl hreset
  · rw [stepAt_of_accepts p ha] at h
    cases h
    exact .inr (.inl ⟨ha, rfl⟩)
  · exact .inr (.inr hwaits)

theorem txWrite_eq_none {p : Params} {s : State} (h : handsOver s.txReady s.sequencer = false) :
    txWrite p s = none := by
  simp [txWrite, h]

theorem txWrite_eq_symAt {p : Params} {s : State} (h : handsOver s.txReady s.sequencer = true) :
    txWrite p s = symAt p s.sequencer.h s.sequencer.symIdx := by
  simp [txWrite, h]

/-! ### The sequencer's moves -/

/-- What the sequencer can do in a cycle without acceptance (R106, R107, R141). -/
inductive SequencerMove (txReady : Bool) (q : Sequencer) : Sequencer → Prop
  | stays (henc : q.busy = true → q.op = .enc → txReady = false) : SequencerMove txReady q q
  | sends (hbusy : q.busy = true) (hop : q.op = .enc) (hphase : q.phase = .send) (hready : txReady = true) :
      SequencerMove txReady q
        { q with symIdx := q.symIdx + 1, phase := if q.symIdx + 1 = q.nSym then .drain else .send }
  | completes (hbusy : q.busy = true) (hop : q.op = .enc) (hphase : q.phase = .drain) (hready : txReady = true) :
      SequencerMove txReady q { q with busy := false }
  | holdEnds (hbusy : q.busy = true) (hop : q.op = .latch) (hcnt : q.latchCnt ≤ 1) :
      SequencerMove txReady q { q with latchCnt := 0, busy := false }
  | holdGoesOn (hbusy : q.busy = true) (hop : q.op = .latch) (hcnt : 1 < q.latchCnt) :
      SequencerMove txReady q { q with latchCnt := q.latchCnt - 1 }

theorem sequencerEdge_move (r : Bool) (q : Sequencer) : SequencerMove r q (sequencerEdge r q) := by
  cases hbusy : q.busy with
  | false =>
    rw [sequencerEdge_idle hbusy]
    exact .stays (by simp [hbusy])
  | true =>
    cases hop : q.op with
    | none =>
      have hstuck : sequencerEdge r q = q := by simp [sequencerEdge, hop]
      rw [hstuck]
      exact .stays (by simp [hop])
    | latch =>
      rw [sequencerEdge_hold hbusy hop]
      split
      · exact .holdEnds hbusy hop ‹_›
      · exact .holdGoesOn hbusy hop (by omega)
    | enc =>
      cases r with
      | false =>
        rw [sequencerEdge_waits hop]
        exact .stays fun _ _ => rfl
      | true =>
        cases hphase : q.phase with
        | send =>
          rw [sequencerEdge_send hbusy hop hphase]
          exact .sends hbusy hop hphase rfl
        | drain =>
          rw [sequencerEdge_drain hbusy hop hphase]
          exact .completes hbusy hop hphase rfl

end Sys2Proof.Machine
end

section
/-! The invariant of the block, in parts: what each component keeps by itself, and how the serializer follows the
sequencer. -/

namespace Sys2Proof.Machine

/-! ### The parts -/

/-- The sequencer's part of the invariant that speaks of symbols (R24, R26, R27, R106, R107). -/
structure Sequencer.SymbolsOk (q : Sequencer) : Prop where
  nSym_values : q.nSym = 0 ∨ q.nSym = 9 ∨ q.nSym = 27
  symIdx_le : q.symIdx ≤ q.nSym
  busy_op : q.busy = true → q.op ≠ .none
  send_left : q.busy = true → q.op = .enc → q.phase = .send → q.symIdx < q.nSym
  drain_done : q.busy = true → q.op = .enc → q.phase = .drain → q.symIdx = q.nSym ∧ 0 < q.nSym

/-- The hold timer's part of the invariant (R28, R141). -/
structure Sequencer.TimerOk (p : Params) (q : Sequencer) : Prop where
  latchCnt_le : q.latchCnt ≤ p.latchHoldCycles
  latchCnt_pos : q.busy = true → q.op = .latch → 1 ≤ q.latchCnt

/-- The ranges of the serializer's counters (R30, R108). -/
structure Serializer.RangesOk (p : Params) (z : Serializer) : Prop where
  shBits_le : z.shBits ≤ 8
  divCnt_lt : z.divCnt < p.div
  divCnt_zero : z.shBits = 0 → z.divCnt = 0

/-- The part of the invariant about the pin, the frame and the error flags (R20, R22, R161). -/
structure Arch.Ok (a : Arch) : Prop where
  gpio_low : a.gpioLevel = false
  frame_armed : a.frame = .transmitting → a.pinMode = .serial
  illegal_recorded : a.errIllegal = true ↔ Event.fault .illegalCommand ∈ a.obs
  unarmed_recorded : a.errUnarmed = true ↔ Event.fault .unarmedWrite ∈ a.obs

/-- The last symbol handed over, an IDLE, is in the buffer or has just been loaded (R107, R112). -/
def Serializer.HoldsLastIdle (z : Serializer) : Prop :=
  if z.txbufFull = true then z.txbuf = Config.idle else z.sh = Config.idle ∧ z.shBits = 8 ∧ z.divCnt = 0

/-- Nothing is buffered, and only an IDLE can be shifting (R113). -/
def Serializer.OnlyIdleLeft (z : Serializer) : Prop :=
  z.txbufFull = false ∧ (0 < z.shBits → z.sh = Config.idle)

/-- How the serializer stands to the sequencer: in DRAIN it holds the last IDLE, and outside an ENC command at most
the rest of one (R107, R112, R113). -/
structure Serializer.Follows (q : Sequencer) (z : Serializer) : Prop where
  drain : q.busy = true → q.op = .enc → q.phase = .drain → z.HoldsLastIdle
  quiet : ¬(q.busy = true ∧ q.op = .enc) → z.OnlyIdleLeft

theorem inv_iff_parts (p : Params) (s : State) :
    Inv p s ↔ s.sequencer.SymbolsOk ∧ s.sequencer.TimerOk p ∧ s.serializer.RangesOk p ∧ s.arch.Ok ∧
      s.serializer.Follows s.sequencer ∧
      (s.sequencer.busy = true → s.sequencer.op = .latch → s.arch.pinMode = .gpio) := by
  constructor
  · intro h
    have enc : s.sequencer.busy = true → s.sequencer.op = .enc → s.encExecuting = true := fun hb ho =>
      (encExecuting_iff s).mpr ⟨hb, ho⟩
    have notEnc : ¬(s.sequencer.busy = true ∧ s.sequencer.op = .enc) → s.encExecuting = false := fun hn =>
      Bool.eq_false_iff.mpr (mt (encExecuting_iff s).mp hn)
    exact ⟨⟨h.nSym_values, h.symIdx_le, h.busy_op, fun hb ho => h.send_left (enc hb ho),
        fun hb ho hp =>
          have ⟨hidx, hpos, _⟩ := h.drain_done (enc hb ho) hp
          ⟨hidx, hpos⟩⟩,
      ⟨h.latchCnt_le, fun hb ho => (h.hold_runs hb ho).1⟩,
      ⟨h.shBits_le, h.divCnt_lt, h.divCnt_zero⟩,
      ⟨h.gpio_low, h.frame_armed, h.illegal_recorded, h.unarmed_recorded⟩,
      ⟨fun hb ho hp =>
          have ⟨_, _, hidle⟩ := h.drain_done (enc hb ho) hp
          hidle,
        fun hn => h.quiet (notEnc hn)⟩,
      fun hb ho => (h.hold_runs hb ho).2⟩
  · rintro ⟨hsym, htimer, hranges, harch, hfollows, hpin⟩
    have enc : s.encExecuting = true → s.sequencer.busy = true ∧ s.sequencer.op = .enc := (encExecuting_iff s).mp
    exact {
      nSym_values := hsym.nSym_values
      symIdx_le := hsym.symIdx_le
      busy_op := hsym.busy_op
      send_left := fun he => hsym.send_left (enc he).1 (enc he).2
      drain_done := fun he hp =>
        have hdone := hsym.drain_done (enc he).1 (enc he).2 hp
        ⟨hdone.1, hdone.2, hfollows.drain (enc he).1 (enc he).2 hp⟩
      latchCnt_le := htimer.latchCnt_le
      hold_runs := fun hb ho => ⟨htimer.latchCnt_pos hb ho, hpin hb ho⟩
      shBits_le := hranges.shBits_le
      divCnt_lt := hranges.divCnt_lt
      divCnt_zero := hranges.divCnt_zero
      quiet := fun he => hfollows.quiet fun hn => Bool.eq_false_iff.mp he ((encExecuting_iff s).mpr hn)
      gpio_low := harch.gpio_low
      frame_armed := harch.frame_armed
      illegal_recorded := harch.illegal_recorded
      unarmed_recorded := harch.unarmed_recorded }

theorem Inv.symbolsOk {p : Params} {s : State} (h : Inv p s) : s.sequencer.SymbolsOk :=
  ((inv_iff_parts p s).mp h).1

/-! ### The reset state -/

theorem countersOk_iff (p : Params) : p.countersOk = true ↔ 1 ≤ p.div ∧ 1 ≤ p.latchHoldCycles := by
  simp [Params.countersOk]

theorem reset_symbolsOk : State.reset.sequencer.SymbolsOk :=
  ⟨.inl rfl, Nat.le_refl 0, nofun, nofun, nofun⟩

/-- Settles O48: at reset nothing executes, the counters are 0, and nothing is recorded. -/
theorem resetMeetsInvariant : Obligations.ResetMeetsInvariant := by
  intro p hs hp
  have hdiv : 0 < p.div := ((countersOk_iff p).mp hp).1
  rw [inv_iff_parts]
  exact ⟨reset_symbolsOk, ⟨Nat.zero_le _, nofun⟩, ⟨Nat.zero_le 8, hdiv, fun _ => rfl⟩,
    ⟨rfl, nofun, ⟨nofun, nofun⟩, ⟨nofun, nofun⟩⟩, ⟨nofun, fun _ => ⟨rfl, nofun⟩⟩, nofun⟩

/-! ### The sequencer -/

theorem Sequencer.SymbolsOk.wordStart {q : Sequencer} (h : q.SymbolsOk) (p : Params) (w : Word) :
    (wordStart p w q).SymbolsOk := by
  unfold Machine.wordStart
  cases decode w with
  | none => exact h
  | some i =>
    cases i with
    | writeColor r g b => exact ⟨.inr (.inr rfl), Nat.zero_le 27, nofun, fun _ _ _ => Nat.zero_lt_succ 26, nofun⟩
    | encodeByte b => exact ⟨.inr (.inl rfl), Nat.zero_le 9, nofun, fun _ _ _ => Nat.zero_lt_succ 8, nofun⟩
    | latch => exact ⟨h.nSym_values, h.symIdx_le, nofun, nofun, nofun⟩
    | arm => exact h

theorem Sequencer.SymbolsOk.move {r : Bool} {q q' : Sequencer} (h : q.SymbolsOk) (hm : SequencerMove r q q') :
    q'.SymbolsOk := by
  cases hm with
  | stays => exact h
  | sends hb ho hp =>
    have hlt : q.symIdx < q.nSym := h.send_left hb ho hp
    refine ⟨h.nSym_values, hlt, h.busy_op, fun _ _ hsend => ?_, fun _ _ hdrain => ?_⟩
    · have hne : q.symIdx + 1 ≠ q.nSym := fun he => by simp [he] at hsend
      exact Nat.lt_of_le_of_ne hlt hne
    · have he : q.symIdx + 1 = q.nSym := by
        by_contra hne
        simp [hne] at hdrain
      exact ⟨he, Nat.zero_lt_of_lt hlt⟩
  | completes => exact ⟨h.nSym_values, h.symIdx_le, nofun, nofun, nofun⟩
  | holdEnds => exact ⟨h.nSym_values, h.symIdx_le, nofun, nofun, nofun⟩
  | holdGoesOn => exact ⟨h.nSym_values, h.symIdx_le, h.busy_op, h.send_left, h.drain_done⟩

theorem Sequencer.TimerOk.wordStart {p : Params} {q : Sequencer} (h : q.TimerOk p) (hp : 1 ≤ p.latchHoldCycles)
    (w : Word) : (wordStart p w q).TimerOk p := by
  unfold Machine.wordStart
  cases decode w with
  | none => exact h
  | some i =>
    cases i with
    | writeColor r g b => exact ⟨h.latchCnt_le, nofun⟩
    | encodeByte b => exact ⟨h.latchCnt_le, nofun⟩
    | latch => exact ⟨Nat.le_refl _, fun _ _ => hp⟩
    | arm => exact h

theorem Sequencer.TimerOk.move {p : Params} {r : Bool} {q q' : Sequencer} (h : q.TimerOk p)
    (hm : SequencerMove r q q') : q'.TimerOk p := by
  cases hm with
  | stays => exact h
  | sends => exact ⟨h.latchCnt_le, h.latchCnt_pos⟩
  | completes => exact ⟨h.latchCnt_le, nofun⟩
  | holdEnds => exact ⟨Nat.zero_le _, nofun⟩
  | holdGoesOn hb ho hcnt => exact ⟨(Nat.sub_le ..).trans h.latchCnt_le, fun _ _ => Nat.le_sub_one_of_lt hcnt⟩

/-- A symbol that is handed over exists: the sequencer is in SEND, and its index is below 27. -/
theorem Sequencer.SymbolsOk.exists_symAt {r : Bool} {q : Sequencer} (h : q.SymbolsOk) (hh : handsOver r q = true)
    (p : Params) : ∃ v, symAt p q.h q.symIdx = some v := by
  obtain ⟨hb, ho, hp, -⟩ := (handsOver_iff r q).mp hh
  have hlt : q.symIdx < q.nSym := h.send_left hb ho hp
  have hn := h.nSym_values
  exact symAt_isSome p q.h (by omega)

/-- The last symbol of a command is an IDLE. -/
theorem Sequencer.SymbolsOk.symAt_last {q : Sequencer} (h : q.SymbolsOk) (hlast : q.symIdx + 1 = q.nSym)
    (p : Params) : symAt p q.h q.symIdx = some Config.idle := by
  have hn := h.nSym_values
  exact symAt_idle p q.h (by omega) (by omega)

/-! ### The serializer -/

theorem Serializer.RangesOk.shift {p : Params} {z : Serializer} (h : z.RangesOk p) : (z.shift p).RangesOk p := by
  obtain ⟨hbits, hlt, hzero⟩ := h
  rcases Nat.eq_zero_or_pos z.shBits with hb | hb
  · rw [shift_empty hb]
    exact ⟨hbits, Nat.zero_lt_of_lt hlt, fun _ => rfl⟩
  · by_cases hd : z.divCnt = p.div - 1
    · rw [shift_bitEnd hb hd]
      exact ⟨(Nat.sub_le ..).trans hbits, Nat.zero_lt_of_lt hlt, fun _ => rfl⟩
    · rw [shift_midBit hb hd]
      exact ⟨hbits, by simp only; omega, fun h0 => absurd h0 (Nat.pos_iff_ne_zero.mp hb)⟩

theorem Serializer.RangesOk.load {p : Params} {z : Serializer} (h : z.RangesOk p) : z.load.RangesOk p := by
  by_cases hl : z.shBits = 0 ∧ z.txbufFull = true
  · rw [load_taken hl.1 hl.2]
    exact ⟨Nat.le_refl 8, Nat.zero_lt_of_lt h.divCnt_lt, nofun⟩
  · rw [load_not_taken (by simpa [imp_iff_not_or] using hl)]
    exact h

theorem Serializer.RangesOk.edge {p : Params} {z : Serializer} (h : z.RangesOk p) (w : Option Byte) :
    (serializerEdge p w z).RangesOk p := by
  obtain ⟨hbits, hlt, hzero⟩ := h.shift.load
  unfold serializerEdge
  exact ⟨by simpa using hbits, by simpa using hlt, by simpa using hzero⟩

/-- An IDLE stays an IDLE while it shifts, and nothing else shifts in. -/
theorem shift_sh_idle {p : Params} {z : Serializer} (h : z.sh = Config.idle) : (z.shift p).sh = Config.idle := by
  unfold Serializer.shift
  split
  · split
    · simp [h, Config.idle]
    · exact h
  · exact h

theorem shift_shBits_le (p : Params) (z : Serializer) : (z.shift p).shBits ≤ z.shBits := by
  unfold Serializer.shift
  split
  · split
    · exact Nat.sub_le ..
    · exact Nat.le_refl _
  · exact Nat.le_refl _

theorem Serializer.OnlyIdleLeft.edge {z : Serializer} (h : z.OnlyIdleLeft) (p : Params) :
    (serializerEdge p none z).OnlyIdleLeft := by
  have hfull : (z.shift p).txbufFull = false := by simpa using h.1
  unfold serializerEdge
  rw [load_not_taken (.inr hfull)]
  exact ⟨hfull, fun hpos => shift_sh_idle (h.2 (hpos.trans_le (shift_shBits_le p z)))⟩

theorem Serializer.HoldsLastIdle.edge_of_full {z : Serializer} (h : z.HoldsLastIdle) (hfull : z.txbufFull = true)
    (p : Params) : (serializerEdge p none z).HoldsLastIdle := by
  have hidle : z.txbuf = Config.idle := by simpa [Serializer.HoldsLastIdle, hfull] using h
  unfold serializerEdge
  by_cases hb : (z.shift p).shBits = 0
  · rw [load_taken hb (by simpa using hfull)]
    simp [Serializer.HoldsLastIdle, hidle]
  · rw [load_not_taken (.inl hb)]
    simp [Serializer.HoldsLastIdle, hfull, hidle]

theorem Serializer.HoldsLastIdle.onlyIdleLeft {z : Serializer} (h : z.HoldsLastIdle) (hempty : z.txbufFull = false) :
    z.OnlyIdleLeft := by
  simp only [Serializer.HoldsLastIdle, hempty] at h
  exact ⟨hempty, fun _ => h.1⟩

theorem holdsLastIdle_of_write_idle (p : Params) (z : Serializer) :
    (serializerEdge p (some Config.idle) z).HoldsLastIdle := by
  simp [serializerEdge, Serializer.HoldsLastIdle]

/-- An ENC command starts in SEND, and any other word leaves the serializer's IDLE to shift out. -/
theorem Serializer.Follows.accept {q : Sequencer} {z : Serializer} (h : z.Follows q) (hready : q.busy = false)
    (p : Params) (w : Word) : (serializerEdge p none z).Follows (wordStart p w q) := by
  have hquiet : (serializerEdge p none z).OnlyIdleLeft := (h.quiet (by simp [hready])).edge p
  unfold wordStart
  cases decode w with
  | none => exact ⟨fun hb => by simp [hready] at hb, fun _ => hquiet⟩
  | some i =>
    cases i with
    | writeColor r g b => exact ⟨nofun, fun hn => absurd ⟨rfl, rfl⟩ hn⟩
    | encodeByte b => exact ⟨nofun, fun hn => absurd ⟨rfl, rfl⟩ hn⟩
    | latch => exact ⟨nofun, fun _ => hquiet⟩
    | arm => exact ⟨fun hb => by simp [instrStart, hready] at hb, fun _ => hquiet⟩

theorem Serializer.Follows.clockEdge {p : Params} {s : State} (h : s.serializer.Follows s.sequencer)
    (hsym : s.sequencer.SymbolsOk) :
    (serializerEdge p (txWrite p s) s.serializer).Follows (sequencerEdge s.txReady s.sequencer) := by
  have hm := sequencerEdge_move s.txReady s.sequencer
  generalize hq : sequencerEdge s.txReady s.sequencer = q' at hm ⊢
  cases hm with
  | stays henc =>
    have hw : txWrite p s = none := txWrite_eq_none (by
      rw [Bool.eq_false_iff, Ne, handsOver_iff]
      rintro ⟨hb, ho, -, hr⟩
      simp [henc hb ho] at hr)
    rw [hw]
    refine ⟨fun hb ho hp => ?_, fun hn => (h.quiet hn).edge p⟩
    exact (h.drain hb ho hp).edge_of_full (by simpa [State.txReady] using henc hb ho) p
  | sends hb ho hp hr =>
    refine ⟨fun _ _ hdrain => ?_, fun hn => absurd ⟨hb, ho⟩ hn⟩
    have hlast : s.sequencer.symIdx + 1 = s.sequencer.nSym := by
      by_contra hne
      simp [hne] at hdrain
    rw [txWrite_eq_symAt ((handsOver_iff ..).mpr ⟨hb, ho, hp, hr⟩), hsym.symAt_last hlast]
    exact holdsLastIdle_of_write_idle p _
  | completes hb ho hp hr =>
    have hw : txWrite p s = none := txWrite_eq_none (by simp [handsOver, hp])
    have hempty : s.serializer.txbufFull = false := by simpa [State.txReady] using hr
    rw [hw]
    exact ⟨nofun, fun _ => ((h.drain hb ho hp).onlyIdleLeft hempty).edge p⟩
  | holdEnds hb ho =>
    have hw : txWrite p s = none := txWrite_eq_none (by simp [handsOver, ho])
    rw [hw]
    exact ⟨nofun, fun _ => (h.quiet (by simp [ho])).edge p⟩
  | holdGoesOn hb ho =>
    have hw : txWrite p s = none := txWrite_eq_none (by simp [handsOver, ho])
    rw [hw]
    exact ⟨fun _ ho' => by simp [ho] at ho', fun _ => (h.quiet (by simp [ho])).edge p⟩

/-! ### The transaction-level state -/

theorem Arch.Ok.recordSymbols {a : Arch} (h : a.Ok) (seq : List Byte) : (a.recordSymbols seq).Ok := by
  obtain ⟨hlow, harmed, hill, hun⟩ := h
  cases hpin : a.pinMode with
  | serial =>
    rw [Arch.recordSymbols_serial a seq hpin]
    exact ⟨hlow, fun _ => hpin, by simpa using hill, by simpa using hun⟩
  | gpio =>
    rw [Arch.recordSymbols_gpio a seq hpin]
    exact ⟨hlow, harmed, by simpa using hill, by simp⟩

theorem Arch.Ok.transact {a : Arch} (h : a.Ok) (p : Params) (w : Word) : (transact p a w).Ok := by
  unfold Machine.transact
  cases decode w with
  | none => exact ⟨h.gpio_low, h.frame_armed, by simp, by simpa using h.unarmed_recorded⟩
  | some i =>
    cases i with
    | writeColor r g b => exact h.recordSymbols _
    | encodeByte b => exact h.recordSymbols _
    | latch => exact ⟨rfl, nofun, by simpa [transactInstr] using h.illegal_recorded,
        by simpa [transactInstr] using h.unarmed_recorded⟩
    | arm => exact ⟨h.gpio_low, fun _ => rfl, by simpa [transactInstr] using h.illegal_recorded,
        by simpa [transactInstr] using h.unarmed_recorded⟩

/-- A word that starts a hold switches the pin to GPIO. -/
theorem transact_gpio_of_hold {p : Params} {w : Word} {a : Arch} {q : Sequencer} (hready : q.busy = false)
    (hb : (wordStart p w q).busy = true) (ho : (wordStart p w q).op = .latch) : (transact p a w).pinMode = .gpio := by
  unfold wordStart at hb ho
  unfold transact
  cases hd : decode w with
  | none => simp [hd, hready] at hb
  | some i =>
    cases i with
    | writeColor r g b => simp [hd, instrStart] at ho
    | encodeByte b => simp [hd, instrStart] at ho
    | latch => rfl
    | arm => simp [hd, instrStart, hready] at hb

theorem SequencerMove.hold_before {r : Bool} {q q' : Sequencer} (hm : SequencerMove r q q') (hb : q'.busy = true)
    (ho : q'.op = .latch) : q.busy = true ∧ q.op = .latch := by
  cases hm with
  | stays => exact ⟨hb, ho⟩
  | sends => exact ⟨hb, ho⟩
  | completes => cases hb
  | holdEnds => cases hb
  | holdGoesOn => exact ⟨hb, ho⟩

/-! ### The step -/

theorem inv_acceptEdge {p : Params} {s : State} (hp : 1 ≤ p.latchHoldCycles) (h : Inv p s)
    (hready : s.sequencer.busy = false) (w : Word) : Inv p (acceptEdge p w s) := by
  obtain ⟨hsym, htimer, hranges, harch, hfollows, -⟩ := (inv_iff_parts p s).mp h
  exact (inv_iff_parts p _).mpr ⟨hsym.wordStart p w, htimer.wordStart hp w, hranges.edge none, harch.transact p w,
    hfollows.accept hready p w, transact_gpio_of_hold hready⟩

theorem inv_clockEdge {p : Params} {s : State} (h : Inv p s) :
    Inv p (clockEdge (serializerEdge p) (txWrite p s) s) := by
  obtain ⟨hsym, htimer, hranges, harch, hfollows, hpin⟩ := (inv_iff_parts p s).mp h
  have hm := sequencerEdge_move s.txReady s.sequencer
  refine (inv_iff_parts p _).mpr ⟨hsym.move hm, htimer.move hm, hranges.edge _, harch, hfollows.clockEdge hsym,
    fun hb ho => ?_⟩
  obtain ⟨hb', ho'⟩ := hm.hold_before hb ho
  exact hpin hb' ho'

theorem inv_stepAt {p : Params} {s t : State} (hp : p.countersOk = true) (h : Inv p s) (hs : stepAt p s = .next t) :
    Inv p t := by
  rcases stepAt_next_cases hs with ⟨-, rfl⟩ | ⟨ha, rfl⟩ | ⟨-, -, rfl, -⟩
  · exact resetMeetsInvariant p _ hp
  · exact inv_acceptEdge ((countersOk_iff p).mp hp).2 h (ready_of_accepts ha) _
  · exact inv_clockEdge h

/-- Settles O49: each kind of cycle keeps each part of the invariant. The machine's own step is the general one at the
reference configuration, whose counters can count. -/
theorem stepKeepsInvariant : Obligations.StepKeepsInvariant := by
  refine ⟨fun p s t hp h hs => inv_stepAt hp h hs, fun s t h hs => ?_⟩
  rw [step_eq_stepAt] at hs
  exact inv_stepAt (by decide) h hs

end Sys2Proof.Machine
end

section
/-! What H, txbuf and sh hold after a reset is never observable (R40): two states that agree where a rule can read take
the same kind of cycle, and each component keeps its part of the agreement. -/

namespace Sys2Proof.Machine

/-! ### The agreement, by components -/

/-- The sequencers differ at most in holding registers that no symbol of an executing ENC command comes from. -/
structure Sequencer.Alike (q q' : Sequencer) : Prop where
  rest : { q with h := q'.h } = q'
  holding : q.busy = true → q.op = .enc → ∀ i, 9 * i < q.nSym → q.h.get? i = q'.h.get? i

/-- The serializers differ at most in an empty buffer and in an empty shift register. -/
structure Serializer.Alike (z z' : Serializer) : Prop where
  rest : { z with txbuf := z'.txbuf, sh := z'.sh } = z'
  txbuf : z.txbufFull = true → z.txbuf = z'.txbuf
  sh : 0 < z.shBits → z.sh = z'.sh

theorem Sequencer.Alike.eq_withHolding {q q' : Sequencer} (h : q.Alike q') : ∃ hold, q' = { q with h := hold } :=
  ⟨q'.h, h.rest.symm⟩

theorem Serializer.Alike.eq_withBytes {z z' : Serializer} (h : z.Alike z') :
    ∃ b c, z' = { z with txbuf := b, sh := c } :=
  ⟨z'.txbuf, z'.sh, h.rest.symm⟩

theorem agreeWhereRead_iff_alike (s s' : State) :
    AgreeWhereRead s s' ↔ s.arch = s'.arch ∧ s.host = s'.host ∧ s.sequencer.Alike s'.sequencer ∧
      s.serializer.Alike s'.serializer := by
  constructor
  · intro h
    exact ⟨h.arch, h.host, ⟨h.sequencer, fun hb ho => h.holding ((encExecuting_iff s).mpr ⟨hb, ho⟩)⟩,
      ⟨h.serializer, h.txbuf, h.sh⟩⟩
  · rintro ⟨harch, hhost, hq, hz⟩
    exact ⟨harch, hhost, hq.rest, fun he => hq.holding ((encExecuting_iff s).mp he).1 ((encExecuting_iff s).mp he).2,
      hz.rest, hz.txbuf, hz.sh⟩

theorem AgreeWhereRead.refl (s : State) : AgreeWhereRead s s :=
  ⟨rfl, rfl, rfl, fun _ _ _ => rfl, rfl, fun _ => rfl, fun _ => rfl⟩

/-! ### The outputs -/

theorem Sequencer.Alike.busy {q q' : Sequencer} (h : q.Alike q') : q.busy = q'.busy := by
  obtain ⟨hold, rfl⟩ := h.eq_withHolding
  rfl

theorem Serializer.Alike.txbufFull {z z' : Serializer} (h : z.Alike z') : z.txbufFull = z'.txbufFull := by
  obtain ⟨b, c, rfl⟩ := h.eq_withBytes
  rfl

theorem Serializer.Alike.shBits {z z' : Serializer} (h : z.Alike z') : z.shBits = z'.shBits := by
  obtain ⟨b, c, rfl⟩ := h.eq_withBytes
  rfl

/-- The output reads the shift register only while something is shifting (R31). -/
theorem Serializer.Alike.serOut {z z' : Serializer} (h : z.Alike z') : z.serOut = z'.serOut := by
  unfold Serializer.serOut
  rw [← h.shBits]
  split
  · rw [h.sh ‹_›]
  · rfl

theorem AgreeWhereRead.line {s s' : State} (h : AgreeWhereRead s s') : s.line = s'.line := by
  obtain ⟨harch, -, -, hz⟩ := (agreeWhereRead_iff_alike s s').mp h
  unfold State.line
  rw [harch, hz.serOut]

theorem AgreeWhereRead.outputs {s s' : State} (h : AgreeWhereRead s s') : s.outputs = s'.outputs := by
  obtain ⟨harch, -, hq, hz⟩ := (agreeWhereRead_iff_alike s s').mp h
  simp only [State.outputs, State.status, State.cmdReady, State.txReady, h.line, harch, hq.busy, hz.txbufFull]

/-! ### The sequencer -/

theorem sequencerEdge_withHolding (r : Bool) (q : Sequencer) (hold : Holding) :
    sequencerEdge r { q with h := hold } = { sequencerEdge r q with h := hold } := by
  unfold sequencerEdge
  dsimp only
  split
  · split
    · rfl
    · split <;> split <;> rfl
    · split <;> rfl
  · rfl

/-- An ENC command that executes after a move executed before it, with the same symbols. -/
theorem SequencerMove.enc_before {r : Bool} {q q' : Sequencer} (hm : SequencerMove r q q') (hb : q'.busy = true)
    (ho : q'.op = .enc) : q.busy = true ∧ q.op = .enc ∧ q'.nSym = q.nSym := by
  cases hm with
  | stays => exact ⟨hb, ho, rfl⟩
  | sends => exact ⟨hb, ho, rfl⟩
  | completes => cases hb
  | holdEnds => cases hb
  | holdGoesOn => exact ⟨hb, ho, rfl⟩

theorem SequencerMove.h_eq {r : Bool} {q q' : Sequencer} (hm : SequencerMove r q q') : q'.h = q.h := by
  cases hm <;> rfl

theorem Sequencer.Alike.edge {q q' : Sequencer} (h : q.Alike q') (r : Bool) :
    (sequencerEdge r q).Alike (sequencerEdge r q') := by
  obtain ⟨hold, rfl⟩ := h.eq_withHolding
  have hm := sequencerEdge_move r q
  rw [sequencerEdge_withHolding r q hold]
  refine ⟨rfl, fun hb ho i hi => ?_⟩
  obtain ⟨hb', ho', hn⟩ := hm.enc_before hb ho
  rw [hm.h_eq]
  exact h.holding hb' ho' i (hn ▸ hi)

/-- A command's start writes every holding register its symbols come from (R26, R103, R104). -/
theorem Sequencer.Alike.wordStart {q q' : Sequencer} (h : q.Alike q') (hready : q.busy = false) (p : Params)
    (w : Word) : (wordStart p w q).Alike (wordStart p w q') := by
  obtain ⟨hold, rfl⟩ := h.eq_withHolding
  unfold Machine.wordStart
  cases decode w with
  | none => exact ⟨rfl, fun hb => by simp [hready] at hb⟩
  | some i =>
    cases i with
    | writeColor r g b => exact ⟨rfl, fun _ _ _ _ => rfl⟩
    | encodeByte b =>
      refine ⟨rfl, fun _ _ i hi => ?_⟩
      have h0 : i = 0 := by
        have h9 : 9 * i < 9 := hi
        omega
      rw [h0]
      rfl
    | latch => exact ⟨rfl, nofun⟩
    | arm => exact ⟨rfl, fun hb => by simp [instrStart, hready] at hb⟩

/-- The symbol handed over comes from a holding register that the executing command uses. -/
theorem Sequencer.Alike.symAt {q q' : Sequencer} (h : q.Alike q') (hsym : q.SymbolsOk) {r : Bool}
    (hh : handsOver r q = true) (p : Params) : symAt p q.h q.symIdx = symAt p q'.h q'.symIdx := by
  obtain ⟨hb, ho, hp, -⟩ := (handsOver_iff r q).mp hh
  have hlt : q.symIdx < q.nSym := hsym.send_left hb ho hp
  have hreg : q.h.get? (q.symIdx / 9) = q'.h.get? (q.symIdx / 9) := h.holding hb ho _ (by omega)
  obtain ⟨hold, rfl⟩ := h.eq_withHolding
  unfold Machine.symAt
  rw [hreg]

theorem Sequencer.Alike.handsOver {q q' : Sequencer} (h : q.Alike q') (r : Bool) :
    handsOver r q = handsOver r q' := by
  obtain ⟨hold, rfl⟩ := h.eq_withHolding
  rfl

/-! ### The serializer -/

theorem Serializer.Alike.shift {z z' : Serializer} (h : z.Alike z') (p : Params) : (z.shift p).Alike (z'.shift p) := by
  obtain ⟨b, c, rfl⟩ := h.eq_withBytes
  rcases Nat.eq_zero_or_pos z.shBits with hb | hb
  · rw [shift_empty hb, shift_empty (by exact hb)]
    exact ⟨rfl, h.txbuf, h.sh⟩
  · by_cases hd : z.divCnt = p.div - 1
    · rw [shift_bitEnd hb hd, shift_bitEnd (by exact hb) (by exact hd)]
      exact ⟨rfl, h.txbuf, fun _ => congrArg (fun x : Byte => x <<< 1) (h.sh hb)⟩
    · rw [shift_midBit hb hd, shift_midBit (by exact hb) (by exact hd)]
      exact ⟨rfl, h.txbuf, h.sh⟩

theorem Serializer.Alike.load {z z' : Serializer} (h : z.Alike z') : z.load.Alike z'.load := by
  by_cases hl : z.shBits = 0 ∧ z.txbufFull = true
  · rw [load_taken hl.1 hl.2, load_taken (h.shBits ▸ hl.1) (h.txbufFull ▸ hl.2)]
    refine ⟨?_, nofun, fun _ => h.txbuf hl.2⟩
    obtain ⟨b, c, rfl⟩ := h.eq_withBytes
    rfl
  · have hn : z.shBits ≠ 0 ∨ z.txbufFull = false := by simpa [imp_iff_not_or] using hl
    rw [load_not_taken hn, load_not_taken (by rwa [h.shBits, h.txbufFull] at hn)]
    exact h

theorem Serializer.Alike.write {z z' : Serializer} (h : z.Alike z') (w : Option Byte) :
    (z.write w).Alike (z'.write w) := by
  cases w with
  | none => exact h
  | some v =>
    refine ⟨?_, fun _ => rfl, h.sh⟩
    obtain ⟨b, c, rfl⟩ := h.eq_withBytes
    rfl

theorem Serializer.Alike.edge {z z' : Serializer} (h : z.Alike z') (p : Params) (w : Option Byte) :
    (serializerEdge p w z).Alike (serializerEdge p w z') :=
  ((h.shift p).load).write w

/-! ### The step -/

theorem AgreeWhereRead.ports {s s' : State} (h : AgreeWhereRead s s') :
    s.rst = s'.rst ∧ s.accepts = s'.accepts ∧ s.cmdData = s'.cmdData := by
  obtain ⟨-, hhost, hq, -⟩ := (agreeWhereRead_iff_alike s s').mp h
  simp only [State.rst, State.accepts, State.cmdValid, State.cmdReady, State.cmdData, hhost, hq.busy, and_self]

theorem AgreeWhereRead.txReady {s s' : State} (h : AgreeWhereRead s s') : s.txReady = s'.txReady := by
  obtain ⟨-, -, -, hz⟩ := (agreeWhereRead_iff_alike s s').mp h
  simp only [State.txReady, hz.txbufFull]

theorem AgreeWhereRead.handsOver {s s' : State} (h : AgreeWhereRead s s') :
    handsOver s.txReady s.sequencer = handsOver s'.txReady s'.sequencer := by
  obtain ⟨-, -, hq, -⟩ := (agreeWhereRead_iff_alike s s').mp h
  rw [hq.handsOver, h.txReady]

theorem AgreeWhereRead.txWrite {s s' : State} (h : AgreeWhereRead s s') (hsym : s.sequencer.SymbolsOk) (p : Params) :
    txWrite p s = txWrite p s' := by
  obtain ⟨-, -, hq, -⟩ := (agreeWhereRead_iff_alike s s').mp h
  cases hh : Machine.handsOver s.txReady s.sequencer with
  | false => rw [txWrite_eq_none hh, txWrite_eq_none (h.handsOver ▸ hh)]
  | true => rw [txWrite_eq_symAt hh, txWrite_eq_symAt (h.handsOver ▸ hh), hq.symAt hsym hh]

theorem AgreeWhereRead.acceptEdge {s s' : State} (h : AgreeWhereRead s s') (hready : s.sequencer.busy = false)
    (p : Params) (w : Word) : AgreeWhereRead (acceptEdge p w s) (acceptEdge p w s') := by
  obtain ⟨harch, hhost, hq, hz⟩ := (agreeWhereRead_iff_alike s s').mp h
  exact (agreeWhereRead_iff_alike _ _).mpr
    ⟨congrArg (transact p · w) harch, congrArg List.tail hhost, hq.wordStart hready p w, hz.edge p none⟩

theorem AgreeWhereRead.clockEdge {s s' : State} (h : AgreeWhereRead s s') (p : Params) (w : Option Byte) :
    AgreeWhereRead (clockEdge (serializerEdge p) w s) (clockEdge (serializerEdge p) w s') := by
  obtain ⟨harch, hhost, hq, hz⟩ := (agreeWhereRead_iff_alike s s').mp h
  refine (agreeWhereRead_iff_alike _ _).mpr ⟨harch, congrArg hostWaits hhost, ?_, hz.edge p w⟩
  rw [clockEdge_sequencer, clockEdge_sequencer, ← h.txReady]
  exact hq.edge s.txReady

/-- The two blocks take the same kind of cycle, and it keeps them in agreement. -/
theorem AgreeWhereRead.stepAt {p : Params} {s s' t : State} (h : AgreeWhereRead s s') (hsym : s.sequencer.SymbolsOk)
    (hs : stepAt p s = .next t) : ∃ t', stepAt p s' = .next t' ∧ AgreeWhereRead t t' := by
  obtain ⟨hrst, haccepts, hdata⟩ := h.ports
  rcases stepAt_next_cases hs with ⟨hr, rfl⟩ | ⟨ha, rfl⟩ | ⟨hr, ha, rfl, hw⟩
  · rw [h.host]
    exact ⟨_, stepAt_of_rst p (hrst ▸ hr), .refl _⟩
  · rw [hdata]
    exact ⟨_, stepAt_of_accepts p (haccepts ▸ ha), h.acceptEdge (ready_of_accepts ha) p _⟩
  · rw [h.handsOver, h.txWrite hsym p] at hw
    rw [h.txWrite hsym p]
    exact ⟨_, stepAt_of_waits (hrst ▸ hr) (haccepts ▸ ha) hw, h.clockEdge p _⟩

/-! ### The runs from reset

The invariant's part about symbols holds in every run for every parameter set, so that no run stops; the other parts
would ask for counters that can count. -/

theorem exists_stepAt_of_symbolsOk {s : State} (h : s.sequencer.SymbolsOk) (p : Params) :
    ∃ t, stepAt p s = .next t := by
  cases hr : s.rst with
  | true => exact ⟨_, stepAt_of_rst p hr⟩
  | false =>
    cases ha : s.accepts with
    | true => exact ⟨_, stepAt_of_accepts p ha⟩
    | false =>
      refine ⟨_, stepAt_of_waits hr ha fun hh => ?_⟩
      rw [txWrite_eq_symAt hh]
      exact h.exists_symAt hh p

theorem symbolsOk_stepAt {p : Params} {s t : State} (h : s.sequencer.SymbolsOk) (hs : stepAt p s = .next t) :
    t.sequencer.SymbolsOk := by
  rcases stepAt_next_cases hs with ⟨-, rfl⟩ | ⟨-, rfl⟩ | ⟨-, -, rfl, -⟩
  · exact reset_symbolsOk
  · exact h.wordStart p _
  · exact h.move (sequencerEdge_move _ _)

theorem AgreeWhereRead.outputTrace {s s' : State} (h : AgreeWhereRead s s') (hsym : s.sequencer.SymbolsOk)
    (p : Params) (n : Nat) : outputTrace p n s = outputTrace p n s' := by
  induction n generalizing s s' with
  | zero => rfl
  | succ n ih =>
    obtain ⟨t, ht⟩ := exists_stepAt_of_symbolsOk hsym p
    obtain ⟨t', ht', hagree⟩ := h.stepAt hsym ht
    have hrest : Machine.outputTrace p n t = Machine.outputTrace p n t' := ih hagree (symbolsOk_stepAt hsym ht)
    unfold Machine.outputTrace at hrest ⊢
    rw [traceOf_succ _ ht, traceOf_succ _ ht', h.outputs, hrest]

theorem agreeWhereRead_resetWith (h h' : Holding) (b b' c c' : Byte) (hs : List HostMove) :
    AgreeWhereRead (resetWith h b c hs) (resetWith h' b' c' hs) :=
  ⟨rfl, rfl, rfl, nofun, rfl, nofun, nofun⟩

theorem resetWith_symbolsOk (h : Holding) (b c : Byte) (hs : List HostMove) :
    (resetWith h b c hs).sequencer.SymbolsOk :=
  ⟨.inl rfl, Nat.le_refl 0, nofun, nofun, nofun⟩

/-- Settles O12: agreement gives equal outputs, every step keeps it, and reset states have it; so the runs from reset
show the same outputs, by induction on the number of cycles. -/
theorem unspecifiedResetContentsUnobservable : Obligations.UnspecifiedResetContentsUnobservable :=
  ⟨fun _ _ h => h.outputs,
    fun _ _ _ _ hinv h hs => h.stepAt hinv.symbolsOk hs,
    agreeWhereRead_resetWith,
    fun p h h' b b' c c' hs n =>
      (agreeWhereRead_resetWith h h' b b' c c' hs).outputTrace (resetWith_symbolsOk h b c hs) p n⟩

end Sys2Proof.Machine
end

section
/-! The state's flags and outputs (R20 to R25, R35, R38): what each field of the transaction-level state becomes when a
command is accepted, and from that what a cycle can do to it. -/

namespace Sys2Proof.Machine

/-! ### A command's transaction, field by field -/

theorem recordSymbols_frame (seq : List Byte) (a : Arch) :
    (a.recordSymbols seq).frame = if a.pinMode = .serial then .transmitting else a.frame := by
  cases h : a.pinMode with
  | serial => simp [Arch.recordSymbols_serial a seq h]
  | gpio => simp [Arch.recordSymbols_gpio a seq h]

theorem recordSymbols_errUnarmed (seq : List Byte) (a : Arch) :
    (a.recordSymbols seq).errUnarmed = (a.errUnarmed || decide (a.pinMode = .gpio)) := by
  cases h : a.pinMode with
  | serial => simp [Arch.recordSymbols_serial a seq h]
  | gpio => simp [Arch.recordSymbols_gpio a seq h]

theorem obs_prefix_recordSymbols (seq : List Byte) (a : Arch) : a.obs <+: (a.recordSymbols seq).obs := by
  cases h : a.pinMode with
  | serial => simp [Arch.recordSymbols_serial a seq h]
  | gpio => simp [Arch.recordSymbols_gpio a seq h]

section
variable (p : Params) (i : Instr) (a : Arch)

theorem transactInstr_pinMode : (transactInstr p i a).pinMode =
    if i = .latch then .gpio else if i = .arm then .serial else a.pinMode := by
  cases i <;> simp [transactInstr]

theorem transactInstr_gpioLevel :
    (transactInstr p i a).gpioLevel = if i = .latch then false else a.gpioLevel := by
  cases i <;> simp [transactInstr]

theorem transactInstr_frame : (transactInstr p i a).frame =
    if isEnc i = true ∧ a.pinMode = .serial then .transmitting else if i = .latch then .idle else a.frame := by
  cases i <;> simp [transactInstr, recordSymbols_frame, isEnc]

theorem transactInstr_errIllegal : (transactInstr p i a).errIllegal = a.errIllegal := by
  cases i <;> simp [transactInstr]

theorem transactInstr_errUnarmed :
    (transactInstr p i a).errUnarmed = (a.errUnarmed || (isEnc i && decide (a.pinMode = .gpio))) := by
  cases i <;> simp [transactInstr, recordSymbols_errUnarmed, isEnc]

theorem obs_prefix_transactInstr : a.obs <+: (transactInstr p i a).obs := by
  cases i with
  | writeColor r g b => exact obs_prefix_recordSymbols _ a
  | encodeByte b => exact obs_prefix_recordSymbols _ a
  | latch => exact List.prefix_append ..
  | arm => exact List.prefix_append ..

end

/-! ### The frame of the instructions -/

theorem instrStart_latchCnt {p : Params} {i : Instr} (h : i ≠ .latch) (q : Sequencer) :
    (instrStart p i q).latchCnt = q.latchCnt := by
  cases i with
  | latch => exact absurd rfl h
  | _ => rfl

theorem instrStart_of_not_enc {p : Params} {i : Instr} (h : isEnc i = false) (q : Sequencer) :
    (instrStart p i q).h = q.h ∧ (instrStart p i q).nSym = q.nSym ∧ (instrStart p i q).symIdx = q.symIdx ∧
      (instrStart p i q).phase = q.phase := by
  cases i with
  | writeColor | encodeByte => cases h
  | latch | arm => exact ⟨rfl, rfl, rfl, rfl⟩

theorem ne_latch_and_ne_arm_of_enc {i : Instr} (h : isEnc i = true) : i ≠ .latch ∧ i ≠ .arm := by
  constructor <;> rintro rfl <;> cases h

/-- Settles O17: a busy block takes no command, and a ready one takes the command's transaction and start, which leave
the named fields as they are. -/
theorem instructionFrames : Obligations.InstructionFrames := by
  intro i s t h
  rw [exec_eq_execAt] at h
  cases hready : s.sequencer.busy with
  | true =>
    rw [execAt_busy _ i hready] at h
    cases h
    exact ⟨rfl, rfl, rfl, id, List.prefix_rfl, fun _ => ⟨rfl, rfl⟩, fun _ => rfl,
      fun _ => ⟨rfl, rfl, rfl, rfl, rfl⟩, fun _ => ⟨rfl, rfl⟩⟩
  | false =>
    rw [execAt_eq_of_ready _ i hready] at h
    cases h
    refine ⟨rfl, rfl, transactInstr_errIllegal .., fun hset => ?_, obs_prefix_transactInstr .., fun hlatch => ?_,
      fun henc => ?_, fun henc => ⟨?_, instrStart_of_not_enc henc _⟩, ?_⟩
    · simp [transactInstr_errUnarmed, hset]
    · exact ⟨by simp [transactInstr_gpioLevel, hlatch], instrStart_latchCnt hlatch _⟩
    · simp [transactInstr_pinMode, ne_latch_and_ne_arm_of_enc henc]
    · simp [transactInstr_errUnarmed, henc]
    · rintro rfl
      exact ⟨rfl, rfl⟩

/-! ### What a cycle does to the transaction-level state -/

/-- A cycle without reset accepts a command, an illegal word or nothing, and nothing else changes the
transaction-level state. -/
theorem stepAt_arch_cases {p : Params} {s t : State} (h : stepAt p s = .next t) (hr : s.rst = false) :
    (∃ i, s.acceptedInstr = some i ∧ s.acceptsIllegal = false ∧ t.arch = transactInstr p i s.arch) ∨
    (s.acceptedInstr = none ∧ s.acceptsIllegal = true ∧ t.arch = s.arch.illegal) ∨
    (s.acceptedInstr = none ∧ s.acceptsIllegal = false ∧ t.arch = s.arch) := by
  rw [stepAt_arch h hr]
  cases ha : s.accepts with
  | false => exact .inr (.inr (by simp [State.acceptedInstr, State.acceptedWord, State.acceptsIllegal, ha]))
  | true =>
    cases hd : decode s.cmdData with
    | none =>
      exact .inr (.inl (by simp [State.acceptedInstr, State.acceptedWord, State.acceptsIllegal, ha, hd, transact]))
    | some i =>
      exact .inl ⟨i, by simp [State.acceptedInstr, State.acceptedWord, State.acceptsIllegal, ha, hd, transact]⟩

theorem arch_of_rst {p : Params} {s t : State} (h : stepAt p s = .next t) (hr : s.rst = true) :
    t.arch = State.reset.arch := by
  rw [stepAt_of_rst p hr] at h
  cases h
  rfl

/-- Settles O21: a command raises UnarmedWrite or nothing, an illegal word IllegalCommand, and a cycle that accepts no
word raises nothing. -/
theorem errorFlagsSticky : Obligations.ErrorFlagsSticky := by
  intro p s t h
  refine ⟨fun hr => ?_, fun hr => ?_⟩
  · rcases stepAt_arch_cases h hr with ⟨i, hi, hill, harch⟩ | ⟨hi, hill, harch⟩ | ⟨hi, hill, harch⟩
    · simp [harch, State.acceptsEnc, hi, hill, transactInstr_errIllegal, transactInstr_errUnarmed]
    · simp [harch, State.acceptsEnc, hi, hill]
    · simp [harch, State.acceptsEnc, hi, hill]
  · rw [arch_of_rst h hr]
    exact ⟨rfl, rfl⟩

theorem line_of_serial {s : State} (h : s.arch.pinMode = .serial) : s.line = s.serializer.serOut := by
  simp [State.line, h]

theorem line_of_gpio {s : State} (h : s.arch.pinMode = .gpio) : s.line = s.arch.gpioLevel := by
  simp [State.line, h]

/-- Settles O22: of the three things a cycle without reset can accept, only a LATCH or an ARM writes the pin mode. -/
theorem pinModeWrittenOnlyByLatchAndArm : Obligations.PinModeWrittenOnlyByLatchAndArm := by
  refine ⟨fun p s t h => ?_, rfl, fun s => ⟨line_of_serial, line_of_gpio⟩⟩
  cases hr : s.rst with
  | true =>
    rw [arch_of_rst h hr]
    rfl
  | false =>
    rcases stepAt_arch_cases h hr with ⟨i, hi, -, harch⟩ | ⟨hi, -, harch⟩ | ⟨hi, -, harch⟩
    · simp [harch, hi, transactInstr_pinMode]
    · simp [harch, hi]
    · simp [harch, hi]

/-! ### The frame state is read by STATUS alone -/

theorem recordSymbols_withFrame (seq : List Byte) (a : Arch) (f : FrameState) :
    ∃ f', { a with frame := f }.recordSymbols seq = { a.recordSymbols seq with frame := f' } := by
  cases h : a.pinMode with
  | serial => exact ⟨.transmitting, by simp [Arch.recordSymbols, Arch.emit, h]⟩
  | gpio => exact ⟨f, by simp [Arch.recordSymbols, Arch.emit, Arch.raise, h]⟩

theorem transact_withFrame (p : Params) (w : Word) (a : Arch) (f : FrameState) :
    ∃ f', transact p { a with frame := f } w = { transact p a w with frame := f' } := by
  unfold transact
  cases decode w with
  | none => exact ⟨f, rfl⟩
  | some i =>
    cases i with
    | writeColor r g b => exact recordSymbols_withFrame _ a f
    | encodeByte b => exact recordSymbols_withFrame _ a f
    | latch => exact ⟨.idle, rfl⟩
    | arm => exact ⟨f, rfl⟩

theorem stepAt_withFrame {p : Params} {s t : State} (f : FrameState) (h : stepAt p s = .next t) :
    ∃ f', stepAt p (s.withFrame f) = .next (t.withFrame f') := by
  rcases stepAt_next_cases h with ⟨hr, rfl⟩ | ⟨ha, rfl⟩ | ⟨hr, ha, rfl, hw⟩
  · exact ⟨.idle, stepAt_of_rst p (s := s.withFrame f) hr⟩
  · obtain ⟨f', hf⟩ := transact_withFrame p s.cmdData s.arch f
    have harch : acceptEdge p s.cmdData (s.withFrame f) = (acceptEdge p s.cmdData s).withFrame f' := by
      simp [acceptEdge, State.withFrame, hf]
    exact ⟨f', (stepAt_of_accepts p (s := s.withFrame f) ha).trans (congrArg _ harch)⟩
  · exact ⟨f, stepAt_of_waits (s := s.withFrame f) hr ha hw⟩

/-- Settles O23: an armed ENC command opens the frame, LATCH closes it, and every cycle commutes with a change of the
frame state. -/
theorem frameTransitions : Obligations.FrameTransitions := by
  refine ⟨fun p s t h hr => ?_, rfl, fun p s t f h => stepAt_withFrame f h, fun s f => rfl⟩
  rcases stepAt_arch_cases h hr with ⟨i, hi, -, harch⟩ | ⟨hi, -, harch⟩ | ⟨hi, -, harch⟩
  · simp [harch, State.acceptsEnc, hi, transactInstr_frame]
  · simp [harch, State.acceptsEnc, hi]
  · simp [harch, State.acceptsEnc, hi]

/-! ### The GPIO level -/

theorem stepAt_gpioLevel {p : Params} {s t : State} (h : stepAt p s = .next t) (hr : s.rst = false) :
    t.arch.gpioLevel = if s.acceptedInstr = some .latch then false else s.arch.gpioLevel := by
  rcases stepAt_arch_cases h hr with ⟨i, hi, -, harch⟩ | ⟨hi, -, harch⟩ | ⟨hi, -, harch⟩
  · simp [harch, hi, transactInstr_gpioLevel]
  · simp [harch, hi]
  · simp [harch, hi]

theorem gpioLevel_low_stepAt {p : Params} {s t : State} (hlow : s.arch.gpioLevel = false)
    (h : stepAt p s = .next t) : t.arch.gpioLevel = false := by
  cases hr : s.rst with
  | true =>
    rw [arch_of_rst h hr]
    rfl
  | false => simp [stepAt_gpioLevel h hr, hlow]

/-- Settles O24: no write to the level ever writes 1, so it is 0 in every run from reset. -/
theorem gpioLevelNeverHigh : Obligations.GpioLevelNeverHigh := by
  refine ⟨rfl, fun _ => line_of_gpio, fun p s t h hr hlatch => ?_, fun s t hready h => ?_,
    fun p hs n t h => ?_⟩
  · simp [stepAt_gpioLevel h hr, hlatch]
  · rw [exec_eq_execAt, execAt_eq_of_ready _ _ hready] at h
    cases h
    exact ⟨rfl, rfl⟩
  · exact cycles_induction (I := fun s => s.arch.gpioLevel = false) (fun _ _ => gpioLevel_low_stepAt) n _ t rfl h

/-! ### The STATUS word and the reset values -/

theorem flagAt_getLsbD {k : Nat} (hk : k < 32) (b : Bool) (i : Nat) :
    (flagAt k b).getLsbD i = (decide (i = k) && b) := by
  cases b with
  | false => simp [flagAt]
  | true =>
    have hone : flagAt k true = BitVec.twoPow 32 k := rfl
    simp [hone, BitVec.getLsbD_twoPow, hk, eq_comm]

theorem FrameState.bit_eq (f : FrameState) : f.bit = decide (f = .transmitting) := by cases f <;> rfl

theorem PinMode.bit_eq (m : PinMode) : m.bit = decide (m = .gpio) := by cases m <;> rfl

/-- Settles O26: each flag has a bit of its own, so at each of the seven bits one flag is left, and elsewhere none. -/
theorem statusWordLayout : Obligations.StatusWordLayout := by
  refine ⟨fun s i => ?_, by decide⟩
  simp only [State.status, BitVec.getLsbD_or, ErrorKind.statusBit, FrameState.bit_eq, PinMode.bit_eq, State.txReady]
  simp (disch := decide) only [flagAt_getLsbD]
  split_ifs <;> simp [*]

/-- Settles O9; the STATUS value is that of `statusWordLayout`. -/
theorem resetStateValues : Obligations.ResetStateValues :=
  ⟨⟨rfl, rfl, rfl, rfl, rfl, rfl, rfl, rfl, rfl, rfl, statusWordLayout.2, rfl⟩, rfl⟩

end Sys2Proof.Machine
end

section
/-! The order of symbols and of bits (R53, R61): the observation records the accepted commands' sequences in acceptance
order, and the serializer puts each symbol out most significant bit first. -/

namespace Sys2Proof.Machine

/-! ### The recorded symbols -/

@[simp] theorem symbolsIn_append (l l' : List Event) : symbolsIn (l ++ l') = symbolsIn l ++ symbolsIn l' :=
  List.filterMap_append

@[simp] theorem symbolsIn_map_sym (seq : List Byte) : symbolsIn (seq.map .sym) = seq := by
  rw [symbolsIn, List.filterMap_map]
  exact List.filterMap_some

@[simp] theorem symbolsIn_map_shadow (seq : List Byte) : symbolsIn (seq.map .shadow) = seq := by
  rw [symbolsIn, List.filterMap_map]
  exact List.filterMap_some

@[simp] theorem symbolsIn_nil : symbolsIn [] = [] := rfl

@[simp] theorem symbolsIn_hold_cons (n : Nat) (l : List Event) : symbolsIn (.hold n :: l) = symbolsIn l := rfl

@[simp] theorem symbolsIn_armed_cons (l : List Event) : symbolsIn (.armed :: l) = symbolsIn l := rfl

@[simp] theorem symbolsIn_fault_cons (k : ErrorKind) (l : List Event) : symbolsIn (.fault k :: l) = symbolsIn l := rfl

/-- Armed or not, the sequence is recorded whole; the error of an unarmed command is no symbol. -/
@[simp] theorem symbolsIn_recordSymbols (seq : List Byte) (a : Arch) :
    symbolsIn (a.recordSymbols seq).obs = symbolsIn a.obs ++ seq := by
  cases h : a.pinMode with
  | serial => simp [Arch.recordSymbols_serial a seq h]
  | gpio => simp [Arch.recordSymbols_gpio a seq h]

theorem symbolsIn_transactInstr (p : Params) (i : Instr) (a : Arch) :
    symbolsIn (transactInstr p i a).obs = symbolsIn a.obs ++ instrSymbols p i := by
  cases i with
  | writeColor r g b => exact symbolsIn_recordSymbols _ a
  | encodeByte b => exact symbolsIn_recordSymbols _ a
  | latch => simp [transactInstr, instrSymbols]
  | arm => simp [transactInstr, instrSymbols]

theorem symbolsIn_transact (p : Params) (a : Arch) (w : Word) :
    symbolsIn (transact p a w).obs = symbolsIn a.obs ++ symbolsOf p w := by
  unfold transact symbolsOf
  cases decode w with
  | none => simp
  | some i => exact symbolsIn_transactInstr p i a

theorem symbolsIn_foldl_transact (p : Params) (ws : List Word) (a : Arch) :
    symbolsIn (ws.foldl (transact p) a).obs = symbolsIn a.obs ++ ws.flatMap (symbolsOf p) := by
  induction ws generalizing a with
  | nil => simp
  | cons w ws ih => rw [List.foldl_cons, ih, symbolsIn_transact, List.flatMap_cons, List.append_assoc]

/-- Settles O52: the run refines the transactions of its accepted words (O51), and each records its own symbols. -/
theorem symbolOrderIsAcceptanceOrder : Obligations.SymbolOrderIsAcceptanceOrder := by
  intro p s t n hfree hrun
  rw [cyclesRefineTransactions p s t n hfree hrun]
  exact symbolsIn_foldl_transact p _ _

/-! ### The bits of a loaded symbol -/

/-- A serializer that keeps shifting loads nothing: its edge is the shift and the write. -/
theorem serializerEdge_of_shifting {p : Params} {z : Serializer} (h : (z.shift p).shBits ≠ 0) (w : Option Byte) :
    serializerEdge p w z = (z.shift p).write w := by
  rw [serializerEdge, load_not_taken (.inl h)]

/-- The symbol `b` has been on the output for `n` cycles: `n / DIV` bits have left, and the next has stood for
`n % DIV` cycles. -/
structure Serializer.OnOutputFor (p : Params) (b : Byte) (n : Nat) (z : Serializer) : Prop where
  sh : z.sh = b <<< (n / p.div)
  shBits : z.shBits = 8 - n / p.div
  divCnt : z.divCnt = n % p.div

theorem onOutputFor_zero {p : Params} {z : Serializer} (hbits : z.shBits = 8) (hcnt : z.divCnt = 0) :
    z.OnOutputFor p z.sh 0 :=
  ⟨by simp, by simp [hbits], by simp [hcnt]⟩

/-- The count of cycles goes on inside a bit, or carries into the next bit. -/
theorem div_mod_succ_cases (n : Nat) {d : Nat} (hd : 1 ≤ d) :
    (n % d ≠ d - 1 ∧ (n + 1) / d = n / d ∧ (n + 1) % d = n % d + 1) ∨
    (n % d = d - 1 ∧ (n + 1) / d = n / d + 1 ∧ (n + 1) % d = 0) := by
  have hlt : n % d < d := Nat.mod_lt n hd
  have hn : n % d + d * (n / d) = n := Nat.mod_add_div n d
  by_cases hlast : n % d = d - 1
  · have hcarry : 0 + d * (n / d + 1) = n + 1 := by rw [Nat.mul_succ]; omega
    exact .inr ⟨hlast, (Nat.div_mod_unique hd).mpr ⟨hcarry, hd⟩⟩
  · have hinside : n % d + 1 + d * (n / d) = n + 1 := by omega
    exact .inl ⟨hlast, (Nat.div_mod_unique hd).mpr ⟨hinside, by omega⟩⟩

theorem div_lt_eight {p : Params} {n : Nat} (hn : n < 8 * p.div) : n / p.div < 8 :=
  Nat.div_lt_of_lt_mul (Nat.mul_comm 8 p.div ▸ hn)

theorem Serializer.OnOutputFor.edge {p : Params} {b : Byte} {n : Nat} {z : Serializer} (h : z.OnOutputFor p b n)
    (hdiv : 1 ≤ p.div) (hn : n + 1 < 8 * p.div) (w : Option Byte) :
    (serializerEdge p w z).OnOutputFor p b (n + 1) := by
  obtain ⟨hsh, hbits, hcnt⟩ := h
  have hleft : (n + 1) / p.div < 8 := div_lt_eight hn
  have hpos : 0 < z.shBits := by
    have hbit : n / p.div < 8 := div_lt_eight (Nat.lt_of_succ_lt hn)
    omega
  have hshift : (z.shift p).OnOutputFor p b (n + 1) := by
    rcases div_mod_succ_cases n hdiv with ⟨hmid, hq, hr⟩ | ⟨hend, hq, hr⟩
    · rw [shift_midBit hpos (hcnt ▸ hmid)]
      exact ⟨by rw [hq, hsh], by rw [hq, hbits], by rw [hr, hcnt]⟩
    · rw [shift_bitEnd hpos (hcnt ▸ hend)]
      exact ⟨by rw [hq, hsh, BitVec.shiftLeft_add], by rw [hq, hbits, Nat.sub_sub], by rw [hr]⟩
  have hstill : (z.shift p).shBits ≠ 0 := by
    rw [hshift.shBits]
    omega
  rw [serializerEdge_of_shifting hstill]
  exact ⟨by simpa using hshift.sh, by simpa using hshift.shBits, by simpa using hshift.divCnt⟩

theorem serializerRun_concat (p : Params) (ws : List (Option Byte)) (w : Option Byte) (z : Serializer) :
    serializerRun p (ws ++ [w]) z = serializerEdge p w (serializerRun p ws z) := by
  simp [serializerRun]

/-- A loaded symbol is on the output for one cycle more after each edge, until its eighth bit is over. -/
theorem serializerRun_onOutputFor {p : Params} {z : Serializer} (hdiv : 1 ≤ p.div) (hbits : z.shBits = 8)
    (hcnt : z.divCnt = 0) (ws : List (Option Byte)) (hlen : ws.length < 8 * p.div) :
    (serializerRun p ws z).OnOutputFor p z.sh ws.length := by
  induction ws using List.reverseRecOn with
  | nil => exact onOutputFor_zero hbits hcnt
  | append_singleton ws w ih =>
    rw [List.length_append, List.length_singleton] at hlen ⊢
    rw [serializerRun_concat]
    exact (ih (Nat.lt_of_succ_lt hlen)).edge hdiv hlen w

theorem Serializer.OnOutputFor.shBits_pos {p : Params} {b : Byte} {n : Nat} {z : Serializer}
    (h : z.OnOutputFor p b n) (hn : n < 8 * p.div) : 0 < z.shBits := by
  rw [h.shBits]
  exact Nat.sub_pos_of_lt (div_lt_eight hn)

/-- Bit 7 of the register, shifted left once per bit that has left, is the symbol's next bit. -/
theorem Serializer.OnOutputFor.serOut {p : Params} {b : Byte} {n : Nat} {z : Serializer}
    (h : z.OnOutputFor p b n) (hn : n < 8 * p.div) : z.serOut = b.getLsbD (7 - n / p.div) := by
  have hbit : n / p.div ≤ 7 := Nat.le_of_lt_succ (div_lt_eight hn)
  rw [Serializer.serOut, if_pos (h.shBits_pos hn), h.sh, BitVec.getLsbD_shiftLeft]
  simp [Nat.not_lt.mpr hbit]

/-- Settles O35: after each edge, whatever it writes to the buffer, the register holds the symbol shifted left by the
bits that have left. -/
theorem loadedSymbolLeavesMsbFirst : Obligations.LoadedSymbolLeavesMsbFirst := by
  intro p z ws hdiv hbits hcnt hlen
  have hout := serializerRun_onOutputFor hdiv hbits hcnt ws hlen
  exact ⟨hout.shBits_pos hlen, hout.serOut hlen⟩

end Sys2Proof.Machine
end

section
/-! The fields of a command word as arithmetic on its value (R71): the decoder, the rows of the opcode table and the
encoder in terms of them. -/

namespace Sys2Proof

/-! ### The fields -/

theorem opField_toNat (w : Word) : (opField w).toNat = w.toNat / 2 ^ 28 := by
  have hw : w.toNat < 2 ^ 32 := w.isLt
  rw [opField, BitVec.extractLsb'_toNat, Nat.shiftRight_eq_div_pow]
  omega

theorem rsvField_toNat (w : Word) : (rsvField w).toNat = w.toNat / 2 ^ 24 % 16 := by
  rw [rsvField, BitVec.extractLsb'_toNat, Nat.shiftRight_eq_div_pow]

theorem d2Field_eq_ofNat (w : Word) : d2Field w = BitVec.ofNat 8 (w.toNat / 2 ^ 16) := by
  rw [← Nat.shiftRight_eq_div_pow]
  rfl

theorem d1Field_eq_ofNat (w : Word) : d1Field w = BitVec.ofNat 8 (w.toNat / 2 ^ 8) := by
  rw [← Nat.shiftRight_eq_div_pow]
  rfl

theorem d0Field_eq_ofNat (w : Word) : d0Field w = BitVec.ofNat 8 w.toNat := rfl

theorem d2Field_toNat (w : Word) : (d2Field w).toNat = w.toNat / 2 ^ 16 % 2 ^ 8 := by
  rw [d2Field_eq_ofNat, BitVec.toNat_ofNat]

theorem d1Field_toNat (w : Word) : (d1Field w).toNat = w.toNat / 2 ^ 8 % 2 ^ 8 := by
  rw [d1Field_eq_ofNat, BitVec.toNat_ofNat]

theorem d0Field_toNat (w : Word) : (d0Field w).toNat = w.toNat % 2 ^ 8 := by
  rw [d0Field_eq_ofNat, BitVec.toNat_ofNat]

theorem toNat_append_eq_add {m n : Nat} (x : BitVec m) (y : BitVec n) :
    (x ++ y).toNat = x.toNat * 2 ^ n + y.toNat := by
  rw [BitVec.toNat_append, ← Nat.shiftLeft_add_eq_or_of_lt y.isLt, Nat.shiftLeft_eq]

theorem packWord_toNat (op : BitVec 4) (d2 d1 d0 : Byte) :
    (packWord op d2 d1 d0).toNat = op.toNat * 2 ^ 28 + d2.toNat * 2 ^ 16 + d1.toNat * 2 ^ 8 + d0.toNat := by
  simp only [packWord, toNat_append_eq_add, BitVec.toNat_ofNat]
  omega

section
variable (op : BitVec 4) (d2 d1 d0 : Byte)

@[simp] theorem opField_packWord : opField (packWord op d2 d1 d0) = op := by
  apply BitVec.eq_of_toNat_eq
  rw [opField_toNat, packWord_toNat]
  omega

@[simp] theorem rsvField_packWord : rsvField (packWord op d2 d1 d0) = 0 := by
  apply BitVec.eq_of_toNat_eq
  simp only [rsvField_toNat, packWord_toNat, BitVec.reduceToNat]
  omega

@[simp] theorem d2Field_packWord : d2Field (packWord op d2 d1 d0) = d2 := by
  apply BitVec.eq_of_toNat_eq
  rw [d2Field_toNat, packWord_toNat]
  omega

@[simp] theorem d1Field_packWord : d1Field (packWord op d2 d1 d0) = d1 := by
  apply BitVec.eq_of_toNat_eq
  rw [d1Field_toNat, packWord_toNat]
  omega

@[simp] theorem d0Field_packWord : d0Field (packWord op d2 d1 d0) = d0 := by
  apply BitVec.eq_of_toNat_eq
  rw [d0Field_toNat, packWord_toNat]
  omega

end

/-- A word without reserved bits is nothing but its other four fields (R72). -/
theorem packWord_fields {w : Word} (hrsv : rsvField w = 0) :
    packWord (opField w) (d2Field w) (d1Field w) (d0Field w) = w := by
  have hr : w.toNat / 2 ^ 24 % 16 = 0 := by rw [← rsvField_toNat, hrsv]; rfl
  apply BitVec.eq_of_toNat_eq
  rw [packWord_toNat, opField_toNat, d2Field_toNat, d1Field_toNat, d0Field_toNat]
  omega

/-! ### The decoder, one equation per opcode -/

theorem decode_of_rsv {w : Word} (h : rsvField w ≠ 0) : decode w = none := if_pos h

section
variable {w : Word} (hrsv : rsvField w = 0)
include hrsv

theorem decode_of_op_one (hop : opField w = 1) :
    decode w = some (.writeColor (d2Field w) (d1Field w) (d0Field w)) := by
  simp [decode, hrsv, hop]

theorem decode_of_op_two (hop : opField w = 2) :
    decode w = if d2Field w = 0 ∧ d1Field w = 0 then some (.encodeByte (d0Field w)) else none := by
  simp [decode, hrsv, hop]

theorem decode_of_op_three (hop : opField w = 3) :
    decode w = if d2Field w = 0 ∧ d1Field w = 0 ∧ d0Field w = 0 then some .latch else none := by
  simp [decode, hrsv, hop]

theorem decode_of_op_four (hop : opField w = 4) :
    decode w = if d2Field w = 0 ∧ d1Field w = 0 ∧ d0Field w = 0 then some .arm else none := by
  simp [decode, hrsv, hop]

theorem decode_of_op_unused (hop : opField w = 0 ∨ 5 ≤ (opField w).toNat) : decode w = none := by
  have h1 : opField w ≠ 1 := by bv_omega
  have h2 : opField w ≠ 2 := by bv_omega
  have h3 : opField w ≠ 3 := by bv_omega
  have h4 : opField w ≠ 4 := by bv_omega
  rw [decode, if_neg (not_not.mpr hrsv), if_neg h1, if_neg h2, if_neg h3, if_neg h4]

end

theorem op_cases (op : BitVec 4) : (op = 0 ∨ 5 ≤ op.toNat) ∨ op = 1 ∨ op = 2 ∨ op = 3 ∨ op = 4 := by
  bv_omega

/-- The instructions a word can decode to, with what its fields hold then. -/
theorem decode_cases {w : Word} {i : Instr} (h : decode w = some i) :
    rsvField w = 0 ∧
      ((opField w = 1 ∧ i = .writeColor (d2Field w) (d1Field w) (d0Field w)) ∨
       (opField w = 2 ∧ d2Field w = 0 ∧ d1Field w = 0 ∧ i = .encodeByte (d0Field w)) ∨
       (opField w = 3 ∧ d2Field w = 0 ∧ d1Field w = 0 ∧ d0Field w = 0 ∧ i = .latch) ∨
       (opField w = 4 ∧ d2Field w = 0 ∧ d1Field w = 0 ∧ d0Field w = 0 ∧ i = .arm)) := by
  have hrsv : rsvField w = 0 := by
    by_contra hne
    simp [decode_of_rsv hne] at h
  refine ⟨hrsv, ?_⟩
  rcases op_cases (opField w) with hop | hop | hop | hop | hop
  · simp [decode_of_op_unused hrsv hop] at h
  · rw [decode_of_op_one hrsv hop] at h
    cases h
    exact .inl ⟨hop, rfl⟩
  · rw [decode_of_op_two hrsv hop] at h
    obtain ⟨⟨h2, h1⟩, ⟨⟩⟩ := Option.ite_none_right_eq_some.mp h
    exact .inr (.inl ⟨hop, h2, h1, rfl⟩)
  · rw [decode_of_op_three hrsv hop] at h
    obtain ⟨⟨h2, h1, h0⟩, ⟨⟩⟩ := Option.ite_none_right_eq_some.mp h
    exact .inr (.inr (.inl ⟨hop, h2, h1, h0, rfl⟩))
  · rw [decode_of_op_four hrsv hop] at h
    obtain ⟨⟨h2, h1, h0⟩, ⟨⟩⟩ := Option.ite_none_right_eq_some.mp h
    exact .inr (.inr (.inr ⟨hop, h2, h1, h0, rfl⟩))

/-! ### Encoder and decoder -/

/-- Settles O4: the decoder finds the instruction's opcode and operands in the fields the encoder packed. -/
theorem decodeEncodeRoundTrip : Obligations.DecodeEncodeRoundTrip := by
  intro i
  cases i with
  | writeColor r g b => simp [encode, decode_of_op_one]
  | encodeByte b => simp [encode, decode_of_op_two]
  | latch => simp [encode, decode_of_op_three]
  | arm => simp [encode, decode_of_op_four]

/-- Settles O5: in each row the word's fields are those the encoder packs, and a word is nothing but its fields. -/
theorem encodeDecodeRoundTrip : Obligations.EncodeDecodeRoundTrip := by
  intro w i h
  obtain ⟨hrsv, hrow⟩ := decode_cases h
  have hw := packWord_fields hrsv
  rcases hrow with ⟨hop, rfl⟩ | ⟨hop, h2, h1, rfl⟩ | ⟨hop, h2, h1, h0, rfl⟩ | ⟨hop, h2, h1, h0, rfl⟩
  · rwa [hop] at hw
  · rwa [hop, h2, h1] at hw
  · rwa [hop, h2, h1, h0] at hw
  · rwa [hop, h2, h1, h0] at hw

/-! ### The decoder as arithmetic -/

theorem rsvField_eq_zero_iff (w : Word) : rsvField w = 0 ↔ w.toNat / 2 ^ 24 % 16 = 0 := by
  rw [← BitVec.toNat_inj, rsvField_toNat]
  rfl

theorem opField_eq_iff (w : Word) (op : BitVec 4) : opField w = op ↔ w.toNat / 2 ^ 28 = op.toNat := by
  rw [← BitVec.toNat_inj, opField_toNat]

theorem d2_d1_eq_zero_iff (w : Word) : d2Field w = 0 ∧ d1Field w = 0 ↔ w.toNat / 2 ^ 8 % 2 ^ 16 = 0 := by
  simp only [← BitVec.toNat_inj, d2Field_toNat, d1Field_toNat, BitVec.reduceToNat]
  omega

theorem d2_d1_d0_eq_zero_iff (w : Word) :
    d2Field w = 0 ∧ d1Field w = 0 ∧ d0Field w = 0 ↔ w.toNat % 2 ^ 24 = 0 := by
  simp only [← BitVec.toNat_inj, d2Field_toNat, d1Field_toNat, d0Field_toNat, BitVec.reduceToNat]
  omega

/-- Settles O1: each test of the decoder on a field is a test on the word's value, and each operand is its field. -/
theorem decoderReadsFields : Obligations.DecoderReadsFields := by
  intro w
  simp only [decode, ne_eq, rsvField_eq_zero_iff, opField_eq_iff, BitVec.reduceToNat, d2_d1_eq_zero_iff,
    d2_d1_d0_eq_zero_iff]
  simp only [d2Field_eq_ofNat, d1Field_eq_ofNat, d0Field_eq_ofNat]

/-! ### The rows of the opcode table -/

theorem TableRow.holds_iff (r : TableRow) (w : Word) : r.holds w = true ↔ w &&& r.mask = r.pattern := by
  simp [TableRow.holds]

/-- Every encoding matches its row (R71). -/
theorem tableRow_holds_encode (i : Instr) : (tableRow i).holds (encode i) = true := by
  rw [TableRow.holds_iff]
  cases i with
  | writeColor r g b => exact Laws.EncodesRow.writeColor r g b
  | encodeByte b => exact Laws.EncodesRow.encodeByte b
  | latch => exact Laws.EncodesRow.latch
  | arm => exact Laws.EncodesRow.arm

/-- A word that matches a row matches it field by field. -/
theorem TableRow.fields_of_holds {r : TableRow} {w : Word} (h : r.holds w = true) :
    opField w &&& opField r.mask = opField r.pattern ∧ rsvField w &&& rsvField r.mask = rsvField r.pattern ∧
      d2Field w &&& d2Field r.mask = d2Field r.pattern ∧ d1Field w &&& d1Field r.mask = d1Field r.pattern ∧
      d0Field w &&& d0Field r.mask = d0Field r.pattern := by
  rw [← (r.holds_iff w).mp h]
  simp only [opField, rsvField, d2Field, d1Field, d0Field, BitVec.extractLsb'_and, and_self]

/-- A field that a row's mask covers holds what the row's pattern has there. -/
theorem eq_of_and_allOnes {n : Nat} {x m p : BitVec n} (hm : m = BitVec.allOnes n) (h : x &&& m = p) : x = p := by
  rwa [hm, BitVec.and_allOnes] at h

/-- Every row fixes the opcode, and asks for no reserved bit (R72). -/
theorem opcodeTable_masks : ∀ r ∈ opcodeTable,
    opField r.mask = BitVec.allOnes 4 ∧ rsvField r.mask = BitVec.allOnes 4 ∧ rsvField r.pattern = 0 := by decide

/-- The opcode tells the rows apart. -/
theorem opcodeTable_opcodes : ∀ r ∈ opcodeTable, ∀ r' ∈ opcodeTable,
    opField r.pattern = opField r'.pattern → r = r' := by decide

theorem op_rsv_of_holds {r : TableRow} {w : Word} (hr : r ∈ opcodeTable) (h : r.holds w = true) :
    opField w = opField r.pattern ∧ rsvField w = 0 := by
  obtain ⟨hop, hrsv, -⟩ := TableRow.fields_of_holds h
  obtain ⟨hmop, hmrsv, hprsv⟩ := opcodeTable_masks r hr
  exact ⟨eq_of_and_allOnes hmop hop, (eq_of_and_allOnes hmrsv hrsv).trans hprsv⟩

/-- A word that matches a row has the fields the decoder asks for: the row's opcode, and 0 in each must-be-zero field
(R72). -/
theorem exists_decode_of_holds {w : Word} {r : TableRow} (hr : r ∈ opcodeTable) (h : r.holds w = true) :
    ∃ i, decode w = some i := by
  obtain ⟨hop, hrsv⟩ := op_rsv_of_holds hr h
  obtain ⟨-, -, h2, h1, h0⟩ := TableRow.fields_of_holds h
  simp only [opcodeTable, List.mem_cons, List.not_mem_nil, or_false] at hr
  rcases hr with rfl | rfl | rfl | rfl
  · exact ⟨_, decode_of_op_one hrsv hop⟩
  · have hzero : d2Field w = 0 ∧ d1Field w = 0 :=
      ⟨eq_of_and_allOnes (by decide) h2, eq_of_and_allOnes (by decide) h1⟩
    exact ⟨_, (decode_of_op_two hrsv hop).trans (if_pos hzero)⟩
  · have hzero : d2Field w = 0 ∧ d1Field w = 0 ∧ d0Field w = 0 :=
      ⟨eq_of_and_allOnes (by decide) h2, eq_of_and_allOnes (by decide) h1, eq_of_and_allOnes (by decide) h0⟩
    exact ⟨_, (decode_of_op_three hrsv hop).trans (if_pos hzero)⟩
  · have hzero : d2Field w = 0 ∧ d1Field w = 0 ∧ d0Field w = 0 :=
      ⟨eq_of_and_allOnes (by decide) h2, eq_of_and_allOnes (by decide) h1, eq_of_and_allOnes (by decide) h0⟩
    exact ⟨_, (decode_of_op_four hrsv hop).trans (if_pos hzero)⟩

/-- Settles O2: a word that decodes is an encoding, which matches its row; a word that matches a row has the fields the
decoder asks for; and the opcode field tells the rows apart. -/
theorem opcodeTableRowsDisjoint : Obligations.OpcodeTableRowsDisjoint := by
  refine ⟨fun w i h => ?_, fun w ⟨r, hr, h⟩ => exists_decode_of_holds hr h, fun w r hr r' hr' h h' => ?_⟩
  · rw [← encodeDecodeRoundTrip w i h]
    exact tableRow_holds_encode i
  · have hop := (op_rsv_of_holds hr h).1
    have hop' := (op_rsv_of_holds hr' h').1
    exact opcodeTable_opcodes r hr r' hr' (hop.symm.trans hop')

/-! ### The illegal words -/

/-- The classes of R76, opcode by opcode. -/
theorem decode_eq_none_iff (w : Word) :
    decode w = none ↔
      (opField w = 0 ∨ 5 ≤ (opField w).toNat) ∨ rsvField w ≠ 0 ∨
      (opField w = 2 ∧ (d2Field w ≠ 0 ∨ d1Field w ≠ 0)) ∨
      ((opField w = 3 ∨ opField w = 4) ∧ (d2Field w ≠ 0 ∨ d1Field w ≠ 0 ∨ d0Field w ≠ 0)) := by
  by_cases hrsv : rsvField w = 0
  · rcases op_cases (opField w) with hop | hop | hop | hop | hop
    · exact iff_of_true (decode_of_op_unused hrsv hop) (.inl hop)
    · simp [decode_of_op_one hrsv hop, hrsv, hop]
    · rw [decode_of_op_two hrsv hop]
      simp [hrsv, hop, imp_iff_not_or]
    · rw [decode_of_op_three hrsv hop]
      simp [hrsv, hop, imp_iff_not_or]
    · rw [decode_of_op_four hrsv hop]
      simp [hrsv, hop, imp_iff_not_or]
  · exact iff_of_true (decode_of_rsv hrsv) (.inr (.inl hrsv))

/-- Settles O6: each word is computed. -/
theorem workedEncodings : Obligations.WorkedEncodings := by
  unfold Obligations.WorkedEncodings
  decide

end Sys2Proof
end

section
/-! What a step does with a presented word: a decoded instruction is executed, an illegal one consumed, and a busy block
takes neither (R23, R70, R75, R76). -/

namespace Sys2Proof.Machine

/-! ### Acceptance -/

theorem acceptedWord_eq_some_iff (s : State) (w : Word) :
    s.acceptedWord = some w ↔ s.accepts = true ∧ s.cmdData = w := by
  simp [State.acceptedWord]

theorem acceptedWord_of_busy {s : State} (h : s.sequencer.busy = true) : s.acceptedWord = none := by
  simp [State.acceptedWord, accepts_false_of_busy h]

theorem transact_of_decode {p : Params} {a : Arch} {w : Word} {i : Instr} (h : decode w = some i) :
    transact p a w = transactInstr p i a := by
  simp [transact, h]

theorem transact_of_illegal {p : Params} {a : Arch} {w : Word} (h : decode w = none) : transact p a w = a.illegal := by
  simp [transact, h]

theorem wordStart_of_decode {p : Params} {q : Sequencer} {w : Word} {i : Instr} (h : decode w = some i) :
    wordStart p w q = instrStart p i q := by
  simp [wordStart, h]

/-- An accepting cycle is the instruction's execution, the serializer's edge and the end of the host's move. -/
theorem step_of_accepts {s : State} {i : Instr} (ha : s.accepts = true) (hi : decode s.cmdData = some i) :
    ∃ t, exec i s = .next t ∧
      step s = .next { t with serializer := serializerEdge Config.params none s.serializer, host := s.host.tail } := by
  refine ⟨_, (exec_eq_execAt i s).trans (execAt_eq_of_ready _ i (ready_of_accepts ha)), ?_⟩
  rw [step_eq_stepAt, stepAt_of_accepts _ ha, acceptEdge, transact_of_decode hi, wordStart_of_decode hi]

theorem accepts_withFetchWord (s : State) (nbits w : Nat) : (s.withFetchWord nbits w).accepts = true := by
  obtain ⟨hrst, hvalid, -⟩ := ports_of_send (withFetchWord_host s nbits w)
  exact (accepts_iff _).mpr ⟨hrst, hvalid, rfl⟩

/-- Settles O3: the classes are the decoder's cases, and an accepted illegal word's cycle is an acceptance edge. -/
theorem illegalWordClasses : Obligations.IllegalWordClasses := by
  refine ⟨decode_eq_none_iff, by decide, fun p s w hw hill => ?_⟩
  obtain ⟨ha, rfl⟩ := (acceptedWord_eq_some_iff s w).mp hw
  exact ⟨_, stepAt_of_accepts p ha, rfl, transact_of_illegal hill⟩

/-- Settles O18: `exec` leaves a busy block as it is, and a busy block's cycle without reset is a waiting one, which
keeps the transaction-level state and a held word. -/
theorem noCommandTakenWhileBusy : Obligations.NoCommandTakenWhileBusy := by
  refine ⟨fun i s hbusy => (exec_eq_execAt i s).trans (execAt_busy _ i hbusy), fun p s t hbusy hrst hstep => ?_⟩
  have hready : s.cmdReady = false := by simp [State.cmdReady, hbusy]
  refine ⟨hready, acceptedWord_of_busy hbusy, ?_⟩
  rcases stepAt_next_cases hstep with ⟨hrst', -⟩ | ⟨ha, -⟩ | ⟨-, -, rfl, -⟩
  · simp [hrst] at hrst'
  · simp [accepts_false_of_busy hbusy] at ha
  · exact ⟨rfl, fun w rest hhost => by simp [hhost, hostWaits]⟩

/-- Settles O19: a presented word that a ready block takes is executed, and a fetch word is presented so. -/
theorem stepRunsDecodedInstruction : Obligations.StepRunsDecodedInstruction := by
  refine ⟨fun i s hrst hvalid hready hi => step_of_accepts ((accepts_iff s).mpr ⟨hrst, hvalid, hready⟩) hi,
    fun nbits w i s hi => ?_⟩
  exact step_of_accepts (accepts_withFetchWord s nbits w) hi

end Sys2Proof.Machine
end

section
/-! The assembler (R78, R79): the words of a statement's operands, and what each mnemonic reads. -/

namespace Sys2Proof.Machine

/-! ### Statements to words -/

theorem assemble_of_inRange {st : AsmStmt} (h : st.inRange = true) : st.assemble = some st.words := if_pos h

theorem assemble_of_not_inRange {st : AsmStmt} (h : st.inRange = false) : st.assemble = none := by
  simp [AsmStmt.assemble, h]

theorem writeColor_inRange_iff (r g b : Nat) :
    (AsmStmt.writeColor r g b).inRange = true ↔ r < 256 ∧ g < 256 ∧ b < 256 := by
  simp [AsmStmt.inRange, and_assoc]

theorem encodeByte_inRange_iff (b : Nat) : (AsmStmt.encodeByte b).inRange = true ↔ b < 256 := by
  simp [AsmStmt.inRange]

theorem word_inRange_iff (w : Nat) : (AsmStmt.word w).inRange = true ↔ w < 2 ^ 32 := by
  simp [AsmStmt.inRange]

/-- With operands of a byte each nothing is cut off: the fields stand side by side (R71, R78). -/
theorem packWord_ofNat (op : BitVec 4) {d2 d1 d0 : Nat} (h2 : d2 < 256) (h1 : d1 < 256) (h0 : d0 < 256) :
    packWord op (BitVec.ofNat 8 d2) (BitVec.ofNat 8 d1) (BitVec.ofNat 8 d0) =
      BitVec.ofNat 32 (op.toNat * 2 ^ 28 + d2 * 65536 + d1 * 256 + d0) := by
  have hop : op.toNat < 16 := op.isLt
  apply BitVec.eq_of_toNat_eq
  simp only [packWord_toNat, BitVec.toNat_ofNat]
  omega

theorem assemble_writeColor {r g b : Nat} (hr : r < 256) (hg : g < 256) (hb : b < 256) :
    (AsmStmt.writeColor r g b).assemble = some [BitVec.ofNat 32 (0x10000000 + r * 65536 + g * 256 + b)] := by
  rw [assemble_of_inRange ((writeColor_inRange_iff r g b).mpr ⟨hr, hg, hb⟩)]
  exact congrArg (fun w => some [w]) (packWord_ofNat 1 hr hg hb)

theorem assemble_encodeByte {b : Nat} (hb : b < 256) :
    (AsmStmt.encodeByte b).assemble = some [BitVec.ofNat 32 (0x20000000 + b)] := by
  rw [assemble_of_inRange ((encodeByte_inRange_iff b).mpr hb)]
  exact congrArg (fun w => some [w]) (packWord_ofNat 2 (d2 := 0) (d1 := 0) (by decide) (by decide) hb)

theorem assemble_word (w : Word) : (AsmStmt.word w.toNat).assemble = some [w] := by
  rw [assemble_of_inRange ((word_inRange_iff _).mpr w.isLt), AsmStmt.words, BitVec.ofNat_toNat, BitVec.setWidth_eq]

/-! ### Text to statements -/

/-- The forms of R78 and R79: a mnemonic, its operands as written, and the statement read from them. -/
inductive StmtForm : List Char → List (List Char) → AsmStmt → Prop
  | writeColor {x y z : List Char} {r g b : Nat} (hr : byteNumber x = some r) (hg : byteNumber y = some g)
      (hb : byteNumber z = some b) : StmtForm "write_color".toList [x, y, z] (.writeColor r g b)
  | encodeByte {x : List Char} {b : Nat} (hb : byteNumber x = some b) :
      StmtForm "encode_byte".toList [x] (.encodeByte b)
  | latch : StmtForm "latch".toList [] .latch
  | arm : StmtForm "arm".toList [] .arm
  | pixelOff : StmtForm "pixel_off".toList [] .pixelOff
  | showFrame : StmtForm "show".toList [] .showFrame
  | word {x : List Char} {w : Nat} (hw : wordNumber x = some w) : StmtForm ".word".toList [x] (.word w)

/-- A mnemonic without operands refuses any operand. -/
theorem eq_of_noOperands {ops : List (List Char)} {st st' : AsmStmt}
    (h : (if ops.isEmpty then some st else none) = some st') : ops = [] ∧ st' = st := by
  obtain ⟨hops, hst⟩ := Option.ite_none_right_eq_some.mp h
  exact ⟨List.isEmpty_iff.mp hops, (Option.some.inj hst).symm⟩

/-- The assembler reads nothing but those forms: one case per mnemonic. -/
theorem stmtForm_of_parseStmt {m : List Char} {ops : List (List Char)} {st : AsmStmt}
    (h : parseStmt m ops = some st) : StmtForm m ops st := by
  unfold parseStmt at h
  split at h
  next hm =>
    subst hm
    split at h
    next x y z =>
      split at h
      next r g b hr hg hb => cases h; exact .writeColor hr hg hb
      next => cases h
    next => cases h
  split at h
  next hm =>
    subst hm
    split at h
    next x =>
      obtain ⟨b, hb, rfl⟩ := Option.map_eq_some_iff.mp h
      exact .encodeByte hb
    next => cases h
  split at h
  next hm => obtain ⟨rfl, rfl⟩ := eq_of_noOperands h; exact hm ▸ .latch
  split at h
  next hm => obtain ⟨rfl, rfl⟩ := eq_of_noOperands h; exact hm ▸ .arm
  split at h
  next hm => obtain ⟨rfl, rfl⟩ := eq_of_noOperands h; exact hm ▸ .pixelOff
  split at h
  next hm => obtain ⟨rfl, rfl⟩ := eq_of_noOperands h; exact hm ▸ .showFrame
  split at h
  next hm =>
    subst hm
    split at h
    next x =>
      obtain ⟨w, hw, rfl⟩ := Option.map_eq_some_iff.mp h
      exact .word hw
    next => cases h
  cases h

/-- Settles O7: in range the words are the encoder's, out of range the statement is refused, and each mnemonic reads
exactly its operands. -/
theorem assemblerNeverTruncates : Obligations.AssemblerNeverTruncates := by
  refine ⟨fun r g b hr hg hb => assemble_writeColor hr hg hb, fun b hb => assemble_encodeByte hb, by decide, by decide,
    assemble_word, fun r g b hout => ?_, fun b hout => ?_, fun w hout => ?_, fun m ops st hparse => ?_⟩
  · refine assemble_of_not_inRange (Bool.eq_false_iff.mpr (mt (writeColor_inRange_iff r g b).mp ?_))
    omega
  · exact assemble_of_not_inRange (Bool.eq_false_iff.mpr (mt (encodeByte_inRange_iff b).mp (Nat.not_lt.mpr hout)))
  · exact assemble_of_not_inRange (Bool.eq_false_iff.mpr (mt (word_inRange_iff w).mp (Nat.not_lt.mpr hout)))
  · cases stmtForm_of_parseStmt hparse with
    | writeColor hr hg hb => exact ⟨_, _, _, rfl, hr, hg, hb⟩
    | encodeByte hb => exact ⟨_, rfl, hb⟩
    | latch => rfl
    | arm => rfl
    | pixelOff => rfl
    | showFrame => rfl
    | word hw => exact ⟨_, rfl, hw⟩

/-- A statement other than SHOW stands for one word. -/
theorem words_of_ne_showFrame {st : AsmStmt} (h : st ≠ .showFrame) : ∃ w, st.words = [w] := by
  cases st with
  | showFrame => exact absurd rfl h
  | writeColor r g b => exact ⟨_, rfl⟩
  | encodeByte b => exact ⟨_, rfl⟩
  | latch => exact ⟨_, rfl⟩
  | arm => exact ⟨_, rfl⟩
  | word w => exact ⟨_, rfl⟩
  | pixelOff => exact ⟨_, rfl⟩

/-- Settles O8: the two texts are assembled, and of the forms the assembler reads only SHOW gives more than one word. -/
theorem pseudoInstructionExpansions : Obligations.PseudoInstructionExpansions := by
  refine ⟨by decide, by decide, rfl, rfl, fun m ops st hparse => ?_, fun st hne hin => ?_⟩
  · cases stmtForm_of_parseStmt hparse with
    | pixelOff => exact .inl ⟨rfl, rfl⟩
    | showFrame => exact .inr (.inl ⟨rfl, rfl⟩)
    | writeColor => exact .inr (.inr (.inl ⟨rfl, _, _, _, rfl⟩))
    | encodeByte => exact .inr (.inr (.inr (.inl ⟨rfl, _, rfl⟩)))
    | latch => exact .inr (.inr (.inr (.inr (.inl ⟨rfl, rfl⟩))))
    | arm => exact .inr (.inr (.inr (.inr (.inr (.inl ⟨rfl, rfl⟩)))))
    | word => exact .inr (.inr (.inr (.inr (.inr (.inr ⟨rfl, _, rfl⟩)))))
  · obtain ⟨w, hw⟩ := words_of_ne_showFrame hne
    exact ⟨w, by rw [assemble_of_inRange hin, hw]⟩

end Sys2Proof.Machine
end

section
/-! The frame transmitter at its acceptance (R103, R104) and its symbol sequences, element by element (R100 to R102,
R105, R106). -/

namespace Sys2Proof.Machine

/-! ### The acceptance -/

theorem recordSymbols_eq (seq : List Byte) (a : Arch) :
    a.recordSymbols seq =
      if a.pinMode = .serial then { a with frame := .transmitting, obs := a.obs ++ seq.map .sym }
      else { a with errUnarmed := true, obs := a.obs ++ [.fault .unarmedWrite] ++ seq.map .shadow } := by
  cases h : a.pinMode with
  | serial => rw [Arch.recordSymbols_serial a seq h, if_pos rfl, h]
  | gpio => rw [Arch.recordSymbols_gpio a seq h, if_neg nofun, h]

/-- Settles O13: a ready block takes the command's transaction, which depends on the pin, and its start. -/
theorem encodeByteAccepted : Obligations.EncodeByteAccepted := by
  intro b s hready
  rw [exec_eq_execAt, execAt_eq_of_ready _ _ hready, transactInstr, recordSymbols_eq]
  rfl

/-- Settles O14: as for ENCODE_BYTE, with the channels in wire order. -/
theorem writeColorAccepted : Obligations.WriteColorAccepted := by
  intro r g b s hready
  rw [exec_eq_execAt, execAt_eq_of_ready _ _ hready, transactInstr, recordSymbols_eq]
  rfl

/-! ### Pieces of one length -/

/-- Of pieces of one length `m` strung together, element `j` is element `j % m` of piece `j / m`. -/
theorem getElem?_flatMap_of_length {α β : Type} {f : α → List β} {m : Nat} (hm : 0 < m)
    (hlen : ∀ x, (f x).length = m) (l : List α) (j : Nat) {x : α} (hx : l[j / m]? = some x) :
    (l.flatMap f)[j]? = (f x)[j % m]? := by
  induction l generalizing j with
  | nil => simp at hx
  | cons y l ih =>
    rw [List.flatMap_cons]
    by_cases hj : j < m
    · rw [Nat.div_eq_of_lt hj] at hx
      cases hx
      rw [List.getElem?_append_left (by rwa [hlen]), Nat.mod_eq_of_lt hj]
    · have hle : m ≤ j := Nat.le_of_not_lt hj
      rw [Nat.div_eq_sub_div hm hle, List.getElem?_cons_succ] at hx
      rw [List.getElem?_append_right (by rwa [hlen]), hlen, ih _ hx, Nat.mod_eq_sub_mod hle]

theorem length_flatMap_of_length {α β : Type} {f : α → List β} {m : Nat} (hlen : ∀ x, (f x).length = m)
    (l : List α) : (l.flatMap f).length = l.length * m := by
  simp [List.length_flatMap, hlen]

/-! ### The sequences -/

theorem encSeq_getElem? (p : Params) (b : Byte) {k : Nat} (hk : k < 9) :
    (encSeq p b)[k]? = some (if k < 8 then code p (b.getLsbD (7 - k)) else Config.idle) := by
  interval_cases k <;> rfl

theorem pixelSeq_eq_flatMap (p : Params) (r g b : Byte) : pixelSeq p r g b = [g, r, b].flatMap (encSeq p) := by
  simp [pixelSeq]

theorem pixelSeq_getElem? (p : Params) (r g b : Byte) {j : Nat} {x : Byte} (hx : [g, r, b][j / 9]? = some x) :
    (pixelSeq p r g b)[j]? = (encSeq p x)[j % 9]? := by
  rw [pixelSeq_eq_flatMap]
  exact getElem?_flatMap_of_length (Nat.zero_lt_succ 8) (encSeq_length p) _ j hx

theorem exists_channel (x y z : Byte) {j : Nat} (hj : j < 27) : ∃ b, [x, y, z][j / 9]? = some b := by
  have h3 : j / 9 < [x, y, z].length := Nat.div_lt_of_lt_mul hj
  exact ⟨_, List.getElem?_eq_getElem h3⟩

/-- An ENC command's sequence is EncSeq of its channel bytes: each ninth symbol is the IDLE, and the others are codes
of data bits. -/
theorem instrSymbols_getElem? (p : Params) {i : Instr} (henc : isEnc i = true) {j : Nat}
    (hj : j < (instrSymbols p i).length) : ∃ x, (instrSymbols p i)[j]? = (encSeq p x)[j % 9]? := by
  cases i with
  | latch | arm => cases henc
  | encodeByte b =>
    have h9 : j < 9 := hj
    exact ⟨b, by rw [Nat.mod_eq_of_lt h9]; rfl⟩
  | writeColor r g b =>
    obtain ⟨x, hx⟩ := exists_channel g r b hj
    exact ⟨x, pixelSeq_getElem? p r g b hx⟩

/-- The symbols other than the IDLEs are codes of data bits. -/
theorem instrSymbols_getElem?_data (p : Params) {i : Instr} (henc : isEnc i = true) {j : Nat}
    (hj : j < (instrSymbols p i).length) (h8 : j % 9 ≠ 8) : ∃ bit, (instrSymbols p i)[j]? = some (code p bit) := by
  obtain ⟨x, hx⟩ := instrSymbols_getElem? p henc hj
  have hlt : j % 9 < 8 := by omega
  exact ⟨_, by rw [hx, encSeq_getElem? p x (Nat.lt_succ_of_lt hlt), if_pos hlt]⟩

/-- Settles O28: the elements are those of `encSeq_getElem?`. -/
theorem encSeqElements : Obligations.EncSeqElements := by
  intro p b
  refine ⟨rfl, rfl, encSeq_length p b, fun k hk => ?_, rfl⟩
  rw [encSeq_getElem? p b (Nat.lt_succ_of_lt hk), if_pos hk]

/-- Settles O29: PixelSeq is three pieces of nine symbols, so that element `j` is in the piece of channel `j / 9`. -/
theorem pixelSeqWireOrder : Obligations.PixelSeqWireOrder := by
  intro p r g b
  refine ⟨rfl, pixelSeq_length p r g b, fun j hj => ?_, fun j hj h8 => ?_, fun j hj h8 => ?_⟩
  · obtain ⟨x, hx⟩ := exists_channel g r b hj
    exact ⟨x, hx, pixelSeq_getElem? p r g b hx⟩
  · obtain ⟨x, hx⟩ := exists_channel g r b hj
    rw [pixelSeq_getElem? p r g b hx, h8]
    rfl
  · exact instrSymbols_getElem?_data p (i := .writeColor r g b) rfl hj h8

/-- Settles O31: the sequences are computed, and every command records its own (`symbolsIn_transactInstr`). -/
theorem encSequencesHaveNoSpecialCases : Obligations.EncSequencesHaveNoSpecialCases := by
  intro p r g b a
  refine ⟨rfl, rfl, ?_, ?_⟩ <;> simp [symbolsIn_transactInstr, instrSymbols, pixelSeq]

/-! ### The sequencer's view -/

theorem symAt_eq_encSeq (p : Params) {h : Holding} {j : Nat} {x : Byte} (hx : h.get? (j / 9) = some x) :
    symAt p h j = (encSeq p x)[j % 9]? := by
  rw [encSeq_getElem? p x (Nat.mod_lt j (Nat.zero_lt_succ 8)), symAt, hx]
  rfl

theorem Holding.get?_eq_getElem? (h : Holding) (i : Nat) : h.get? i = [h.h0, h.h1, h.h2][i]? := by
  match i with
  | 0 | 1 | 2 => rfl
  | _ + 3 => rfl

theorem instrStart_nSym (p : Params) {i : Instr} (henc : isEnc i = true) (q : Sequencer) :
    (instrStart p i q).nSym = (instrSymbols p i).length := by
  cases i with
  | latch | arm => cases henc
  | encodeByte | writeColor => rfl

theorem symAt_instrStart (p : Params) {i : Instr} (henc : isEnc i = true) (q : Sequencer) {j : Nat}
    (hj : j < (instrSymbols p i).length) : symAt p (instrStart p i q).h j = (instrSymbols p i)[j]? := by
  cases i with
  | latch | arm => cases henc
  | encodeByte b =>
    have h9 : j < 9 := hj
    have hget : (instrStart p (.encodeByte b) q).h.get? (j / 9) = some b := by
      rw [Nat.div_eq_of_lt h9]
      rfl
    rw [symAt_eq_encSeq p hget, Nat.mod_eq_of_lt h9]
    rfl
  | writeColor r g b =>
    obtain ⟨x, hx⟩ := exists_channel g r b hj
    have hget : (instrStart p (.writeColor r g b) q).h.get? (j / 9) = some x := (Holding.get?_eq_getElem? ..).trans hx
    rw [symAt_eq_encSeq p hget]
    exact (pixelSeq_getElem? p r g b hx).symm

/-- Settles O30: the start stores the channel bytes in wire order, and SymAt reads EncSeq of the stored byte. -/
theorem symAtFollowsSequence : Obligations.SymAtFollowsSequence := by
  intro p i s t j henc hready hexec hj
  rw [execAt_eq_of_ready p i hready] at hexec
  cases hexec
  have hn := instrStart_nSym p henc s.sequencer
  exact ⟨hn, symAt_instrStart p henc s.sequencer (hn ▸ hj)⟩

end Sys2Proof.Machine
end

section
/-! The cycles of an ENC command (R106, R107) and of the serializer (R108), one equation per case. -/

namespace Sys2Proof.Machine

/-! ### The phases -/

/-- Settles O32: the sequencer hands the symbol over exactly when the buffer is empty. -/
theorem sendPhaseHandsOverWhenReady : Obligations.SendPhaseHandsOverWhenReady := by
  intro p s hr henc hphase
  obtain ⟨hbusy, hop⟩ := (encExecuting_iff s).mp henc
  have ha := accepts_false_of_busy hbusy
  refine ⟨fun hready => ?_, fun v hready hv => ?_⟩
  · have hno : handsOver s.txReady s.sequencer = false := by simp [handsOver, hready]
    rw [stepAt_of_waits hr ha (by simp [hno]), txWrite_eq_none hno, clockEdge, hready, sequencerEdge_waits hop]
  · have hgo : handsOver s.txReady s.sequencer = true := (handsOver_iff ..).mpr ⟨hbusy, hop, hphase, hready⟩
    have hw : txWrite p s = some v := (txWrite_eq_symAt hgo).trans hv
    rw [stepAt_of_waits hr ha fun _ => ⟨v, hw⟩, hw, clockEdge, hready, sequencerEdge_send hbusy hop hphase]

/-- Settles O33: in DRAIN nothing is handed over, and an empty buffer ends the command. -/
theorem drainPhaseCompletesWhenReady : Obligations.DrainPhaseCompletesWhenReady := by
  intro p s hr henc hphase
  obtain ⟨hbusy, hop⟩ := (encExecuting_iff s).mp henc
  have hno : handsOver s.txReady s.sequencer = false := by simp [handsOver, hphase]
  rw [stepAt_of_waits hr (accepts_false_of_busy hbusy) (by simp [hno]), txWrite_eq_none hno, clockEdge]
  cases hready : s.txReady with
  | true => rw [sequencerEdge_drain hbusy hop hphase]; rfl
  | false => rw [sequencerEdge_waits hop, Bool.not_false, ← hbusy]

/-! ### The serializer's edge -/

theorem serializerEdge_of_empty_buffer {p : Params} {z : Serializer} (hempty : z.txbufFull = false)
    (w : Option Byte) : serializerEdge p w z = (z.shift p).write w := by
  rw [serializerEdge, load_not_taken (.inr (by simpa using hempty))]

theorem serializerEdge_of_load {p : Params} {z : Serializer} (hbits : (z.shift p).shBits = 0)
    (hfull : z.txbufFull = true) (w : Option Byte) :
    serializerEdge p w z =
      ({ txbufFull := false, txbuf := z.txbuf, sh := z.txbuf, shBits := 8, divCnt := 0 } : Serializer).write w := by
  rw [serializerEdge, load_taken hbits (by simpa using hfull), shift_txbuf]

theorem shift_shBits_eq_zero {p : Params} {z : Serializer}
    (h : z.shBits = 0 ∨ z.shBits = 1 ∧ z.divCnt + 1 = p.div) : (z.shift p).shBits = 0 := by
  rcases h with hb | ⟨hb, hc⟩
  · rw [shift_empty hb, hb]
  · rw [shift_bitEnd (hb ▸ Nat.one_pos) (Nat.eq_sub_of_add_eq hc)]
    simp [hb]

/-- The sequencer writes only into an empty buffer (R106, R108). -/
theorem txReady_of_txWrite {p : Params} {s : State} (h : txWrite p s ≠ none) : s.txReady = true := by
  by_contra hn
  exact h (txWrite_eq_none (by simp [handsOver, hn]))

/-- Settles O34: the register shifts inside a bit, at the end of a bit or not at all, and loads exactly when it runs
empty with the buffer full. -/
theorem serializerEdgeCases : Obligations.SerializerEdgeCases := by
  refine ⟨fun p z v w hlt => ⟨fun hb hc => ?_, fun hb hc => ?_, fun hb hf => ?_, fun hb hc hf => ?_, fun hb hf => ?_,
    rfl, rfl⟩, fun p s v hw => txReady_of_txWrite (p := p) (by simp [hw])⟩
  · have hs := shift_midBit (p := p) hb (by omega)
    rw [serializerEdge_of_shifting (by rw [hs]; exact Nat.pos_iff_ne_zero.mp hb), hs]
  · have hs := shift_bitEnd (p := p) (z := z) (by omega) (by omega)
    rw [serializerEdge_of_shifting (by rw [hs]; simp only; omega), hs]
  · exact serializerEdge_of_load (shift_shBits_eq_zero hb) hf none
  · rw [serializerEdge_of_empty_buffer hf, shift_bitEnd (by omega) (by omega), hb]
  · rw [serializerEdge_of_empty_buffer hf, shift_empty hb]

end Sys2Proof.Machine
end

section
/-! The symbols on their way to the shift register (R110): a cycle hands symbols on from the sequencer to the buffer and
from the buffer to the shift register, and an accepted command adds its own at the end. -/

namespace Sys2Proof.Machine

/-! ### The buffer -/

/-- The symbol in the transmit buffer, if one is. -/
def Serializer.buffered (z : Serializer) : Option Byte := if z.txbufFull then some z.txbuf else none

/-- The symbol the shift register takes at the next clock edge, if it takes one. -/
def Serializer.loaded (p : Params) (z : Serializer) : Option Byte :=
  if (z.shift p).shBits = 0 then z.buffered else none

theorem buffered_of_full {z : Serializer} (h : z.txbufFull = true) : z.buffered = some z.txbuf := by
  simp [Serializer.buffered, h]

theorem buffered_of_empty {z : Serializer} (h : z.txbufFull = false) : z.buffered = none := by
  simp [Serializer.buffered, h]

theorem loadedByte_of_no_reset (p : Params) {s : State} (h : s.rst = false) :
    loadedByte p s = s.serializer.loaded p := by
  simp [loadedByte, Serializer.loaded, Serializer.buffered, h, ite_and]

theorem inFlight_eq (p : Params) (s : State) :
    inFlight p s = s.serializer.buffered.toList ++ pendingSymbols p s := by
  unfold inFlight Serializer.buffered
  split <;> rfl

theorem loaded_eq_some_iff {p : Params} {z : Serializer} {b : Byte} :
    z.loaded p = some b ↔ (z.shift p).shBits = 0 ∧ z.txbufFull = true ∧ z.txbuf = b := by
  simp [Serializer.loaded, Serializer.buffered]

theorem loaded_eq_none_iff {p : Params} {z : Serializer} :
    z.loaded p = none ↔ (z.shift p).shBits ≠ 0 ∨ z.txbufFull = false := by
  simp [Serializer.loaded, Serializer.buffered, imp_iff_not_or]

theorem serializerEdge_of_loaded_none {p : Params} {z : Serializer} (h : z.loaded p = none) (w : Option Byte) :
    serializerEdge p w z = (z.shift p).write w := by
  rcases loaded_eq_none_iff.mp h with hbits | hempty
  · exact serializerEdge_of_shifting hbits w
  · exact serializerEdge_of_empty_buffer hempty w

theorem serializerEdge_of_loaded_some {p : Params} {z : Serializer} {b : Byte} (h : z.loaded p = some b)
    (w : Option Byte) : serializerEdge p w z =
      ({ txbufFull := false, txbuf := b, sh := b, shBits := 8, divCnt := 0 } : Serializer).write w := by
  obtain ⟨hbits, hfull, rfl⟩ := loaded_eq_some_iff.mp h
  exact serializerEdge_of_load hbits hfull w

/-- The buffer passes symbols on in order, as long as only an empty buffer is written. -/
theorem buffered_edge {p : Params} {z : Serializer} {w : Option Byte} (hw : w ≠ none → z.txbufFull = false) :
    z.buffered.toList ++ w.toList = (z.loaded p).toList ++ (serializerEdge p w z).buffered.toList := by
  cases hl : z.loaded p with
  | none =>
    rw [serializerEdge_of_loaded_none hl]
    cases w with
    | none => simp [Serializer.buffered]
    | some v =>
      rw [buffered_of_empty (hw nofun)]
      rfl
  | some b =>
    obtain ⟨-, hfull, rfl⟩ := loaded_eq_some_iff.mp hl
    have hnone : w = none := by
      by_contra hne
      simp [hw hne] at hfull
    rw [serializerEdge_of_loaded_some hl, hnone, buffered_of_full hfull]
    rfl

/-! ### The sequencer -/

theorem pendingSymbols_of_send (p : Params) {s : State} (hb : s.sequencer.busy = true) (ho : s.sequencer.op = .enc)
    (hp : s.sequencer.phase = .send) :
    pendingSymbols p s = (List.range' s.sequencer.symIdx (s.sequencer.nSym - s.sequencer.symIdx)).filterMap
      (symAt p s.sequencer.h) := by
  simp [pendingSymbols, State.encExecuting, hb, ho, hp]

theorem pendingSymbols_of_not_sending (p : Params) {s : State}
    (h : s.sequencer.busy = true → s.sequencer.op = .enc → s.sequencer.phase = .drain) :
    pendingSymbols p s = [] := by
  refine if_neg ?_
  rw [Bool.and_eq_true, encExecuting_iff]
  rintro ⟨⟨hb, ho⟩, hp⟩
  simp [h hb ho] at hp

/-- In SEND the symbol at the index is pending, and after it those from the next index on. -/
theorem pendingSymbols_eq_cons {p : Params} {s t : State} {v : Byte} (hb : s.sequencer.busy = true)
    (ho : s.sequencer.op = .enc) (hp : s.sequencer.phase = .send) (hlt : s.sequencer.symIdx < s.sequencer.nSym)
    (hv : symAt p s.sequencer.h s.sequencer.symIdx = some v)
    (ht : t.sequencer = { s.sequencer with
      symIdx := s.sequencer.symIdx + 1
      phase := if s.sequencer.symIdx + 1 = s.sequencer.nSym then .drain else .send }) :
    pendingSymbols p s = v :: pendingSymbols p t := by
  have hsplit : s.sequencer.nSym - s.sequencer.symIdx = s.sequencer.nSym - (s.sequencer.symIdx + 1) + 1 := by omega
  rw [pendingSymbols_of_send p hb ho hp, hsplit, List.range'_succ, List.filterMap_cons_some hv]
  by_cases hlast : s.sequencer.symIdx + 1 = s.sequencer.nSym
  · rw [pendingSymbols_of_not_sending p (by simp [ht, hlast]), hlast, Nat.sub_self]
    rfl
  · rw [pendingSymbols_of_send p (by simp [ht, hb]) (by simp [ht, ho]) (by simp [ht, hlast]), ht]

theorem pendingSymbols_congr (p : Params) {s t : State} (h : t.sequencer = s.sequencer) :
    pendingSymbols p t = pendingSymbols p s := by
  simp [pendingSymbols, State.encExecuting, h]

/-- A sequencer that stays as it is writes nothing. -/
theorem txWrite_of_stays {p : Params} {s : State}
    (h : s.sequencer.busy = true → s.sequencer.op = .enc → s.txReady = false) : txWrite p s = none := by
  refine txWrite_eq_none (Bool.eq_false_iff.mpr fun hgo => ?_)
  obtain ⟨hb, ho, -, hr⟩ := (handsOver_iff ..).mp hgo
  simp [h hb ho] at hr

/-- In a cycle without acceptance the symbol handed over is the first of those pending. -/
theorem pendingSymbols_edge {p : Params} {s t : State} (hsym : s.sequencer.SymbolsOk)
    (ht : t.sequencer = sequencerEdge s.txReady s.sequencer) :
    pendingSymbols p s = (txWrite p s).toList ++ pendingSymbols p t := by
  have hm := sequencerEdge_move s.txReady s.sequencer
  rw [← ht] at hm
  generalize hq : t.sequencer = q at hm
  cases hm with
  | stays henc =>
    rw [txWrite_of_stays henc, pendingSymbols_congr p hq]
    rfl
  | sends hb ho hp hr =>
    have hgo : handsOver s.txReady s.sequencer = true := (handsOver_iff ..).mpr ⟨hb, ho, hp, hr⟩
    obtain ⟨v, hv⟩ := hsym.exists_symAt hgo p
    rw [txWrite_eq_symAt hgo, hv, pendingSymbols_eq_cons hb ho hp (hsym.send_left hb ho hp) hv hq]
    rfl
  | completes hb ho hp hr =>
    rw [txWrite_eq_none (by simp [handsOver, hp]), pendingSymbols_of_not_sending p fun _ _ => hp,
      pendingSymbols_of_not_sending p (by simp [hq])]
    rfl
  | holdEnds hb ho =>
    rw [txWrite_eq_none (by simp [handsOver, ho]), pendingSymbols_of_not_sending p (by simp [ho]),
      pendingSymbols_of_not_sending p (by simp [hq])]
    rfl
  | holdGoesOn hb ho =>
    rw [txWrite_eq_none (by simp [handsOver, ho]), pendingSymbols_of_not_sending p (by simp [ho]),
      pendingSymbols_of_not_sending p (by simp [hq, ho])]
    rfl

theorem filterMap_range_eq {α : Type} {f : Nat → Option α} (l : List α)
    (hf : ∀ j, j < l.length → f j = l[j]?) : (List.range l.length).filterMap f = l := by
  induction l using List.reverseRecOn with
  | nil => rfl
  | append_singleton l x ih =>
    have hinit : (List.range l.length).filterMap f = l := ih fun j hj => by
      rw [hf j (by simp; omega), List.getElem?_append_left hj]
    have hlast : f l.length = some x := by rw [hf _ (by simp), List.getElem?_concat_length]
    rw [List.length_append, List.length_singleton, List.range_succ, List.filterMap_append, hinit,
      List.filterMap_cons_some hlast]
    rfl

theorem instrStart_enc (p : Params) {i : Instr} (henc : isEnc i = true) (q : Sequencer) :
    (instrStart p i q).busy = true ∧ (instrStart p i q).op = .enc ∧ (instrStart p i q).phase = .send ∧
      (instrStart p i q).symIdx = 0 := by
  cases i with
  | latch | arm => cases henc
  | encodeByte | writeColor => exact ⟨rfl, rfl, rfl, rfl⟩

/-- An accepted command's symbols are all pending. -/
theorem pendingSymbols_of_start (p : Params) {i : Instr} (henc : isEnc i = true) {t : State} {q : Sequencer}
    (ht : t.sequencer = instrStart p i q) : pendingSymbols p t = instrSymbols p i := by
  obtain ⟨hb, ho, hp, hidx⟩ := instrStart_enc p henc q
  rw [pendingSymbols_of_send p (ht ▸ hb) (ht ▸ ho) (ht ▸ hp), ht, hidx, Nat.sub_zero, ← List.range_eq_range',
    instrStart_nSym p henc]
  exact filterMap_range_eq _ fun j hj => symAt_instrStart p henc q hj

theorem pendingSymbols_of_wordStart (p : Params) {s t : State} (hready : s.sequencer.busy = false) {w : Word}
    (ht : t.sequencer = wordStart p w s.sequencer) : pendingSymbols p t = symbolsOf p w := by
  unfold wordStart at ht
  unfold symbolsOf
  cases hd : decode w with
  | none =>
    rw [hd] at ht
    exact pendingSymbols_of_not_sending p (by simp [ht, hready])
  | some i =>
    rw [hd] at ht
    cases henc : isEnc i with
    | true => exact pendingSymbols_of_start p henc ht
    | false =>
      cases i with
      | writeColor | encodeByte => cases henc
      | latch => exact pendingSymbols_of_not_sending p (by simp [ht, instrStart])
      | arm => exact pendingSymbols_of_not_sending p (by simp [ht, instrStart, hready])

/-! ### The cycle -/

theorem inFlight_of_ready {p : Params} {s : State} (hready : s.sequencer.busy = false)
    (hempty : s.serializer.txbufFull = false) : inFlight p s = [] := by
  rw [inFlight_eq, buffered_of_empty hempty, pendingSymbols_of_not_sending p (by simp [hready])]
  rfl

theorem inFlight_clockEdge {p : Params} {s : State} (hsym : s.sequencer.SymbolsOk) :
    inFlight p s = (s.serializer.loaded p).toList ++
      inFlight p (clockEdge (serializerEdge p) (txWrite p s) s) := by
  have hbuffer : s.serializer.buffered.toList ++ (txWrite p s).toList =
      (s.serializer.loaded p).toList ++ (serializerEdge p (txWrite p s) s.serializer).buffered.toList :=
    buffered_edge fun hw => by simpa [State.txReady] using txReady_of_txWrite hw
  rw [inFlight_eq, inFlight_eq, pendingSymbols_edge hsym (clockEdge_sequencer ..), ← List.append_assoc, hbuffer,
    List.append_assoc]
  rfl

theorem inFlight_acceptEdge {p : Params} {s : State} (hready : s.sequencer.busy = false)
    (hempty : s.serializer.txbufFull = false) (w : Word) : inFlight p (acceptEdge p w s) = symbolsOf p w := by
  have hbuffer : (serializerEdge p none s.serializer).buffered = none := by
    rw [serializerEdge_of_empty_buffer hempty]
    exact buffered_of_empty (by simpa using hempty)
  rw [inFlight_eq, pendingSymbols_of_wordStart p hready (t := acceptEdge p w s) rfl]
  show (serializerEdge p none s.serializer).buffered.toList ++ _ = _
  rw [hbuffer]
  rfl

/-- R110 for one cycle. -/
theorem inFlight_stepAt {p : Params} {s t : State} (hinv : Inv p s) (hr : s.rst = false) (hs : stepAt p s = .next t) :
    inFlight p s ++ s.acceptedWord.toList.flatMap (symbolsOf p) = (loadedByte p s).toList ++ inFlight p t := by
  rw [loadedByte_of_no_reset p hr]
  rcases stepAt_next_cases hs with ⟨hr', -⟩ | ⟨ha, rfl⟩ | ⟨-, ha, rfl, -⟩
  · simp [hr] at hr'
  · have hready := ready_of_accepts ha
    have hempty : s.serializer.txbufFull = false := (hinv.quiet (by simp [State.encExecuting, hready])).1
    rw [inFlight_acceptEdge hready hempty, inFlight_of_ready hready hempty, State.acceptedWord, if_pos ha,
      loaded_eq_none_iff.mpr (.inr hempty)]
    simp
  · have hnone : s.acceptedWord = none := by simp [State.acceptedWord, ha]
    rw [hnone, ← inFlight_clockEdge hinv.symbolsOk]
    simp

theorem loadedBytes_succ {p : Params} {n : Nat} {s t : State} (h : stepAt p s = .next t) :
    loadedBytes p (n + 1) s = (loadedByte p s).toList ++ loadedBytes p n t :=
  traceOf_succ _ h

/-- Settles O53, by induction on the number of cycles: each cycle keeps the account of R110 (`inFlight_stepAt`), and the
invariant. -/
theorem loadedBytesAreRecordedSymbols : Obligations.LoadedBytesAreRecordedSymbols := by
  intro p s t n hp
  induction n generalizing s with
  | zero =>
    intro _ _ hrun
    cases hrun
    simp [acceptedWords, loadedBytes, traceOf]
  | succ n ih =>
    intro hinv hfree hrun
    obtain ⟨u, hstep, hrest⟩ := cycles_succ_cases hrun
    have hcycle := inFlight_stepAt hinv (rst_of_resetFree hfree) hstep
    have hlater := ih u (inv_stepAt hp hinv hstep) (stepAt_resetFree hstep hfree) hrest
    rw [acceptedWords_succ hstep, loadedBytes_succ hstep, List.flatMap_append, ← List.append_assoc, hcycle,
      List.append_assoc, hlater, List.append_assoc]

end Sys2Proof.Machine
end

section
/-! The shape of the waveform under a well-formed code table (R111, R114, R115). -/

namespace Sys2Proof.Machine

/-! ### A symbol's levels -/

theorem flatMap_replicate_of_const {f : Nat → Bool} {c : Bool} {l : List Nat} (hl : ∀ i ∈ l, f i = c) (d : Nat) :
    (l.flatMap fun i => List.replicate d (f i)) = List.replicate (l.length * d) c := by
  rw [List.eq_replicate_iff]
  refine ⟨length_flatMap_of_length (fun _ => List.length_replicate ..) l, fun x hx => ?_⟩
  obtain ⟨i, hi, hx⟩ := List.mem_flatMap.mp hx
  rw [List.eq_of_mem_replicate hx, hl i hi]

@[simp] theorem symbolWave_length (p : Params) (b : Byte) : (symbolWave p b).length = 8 * p.div :=
  length_flatMap_of_length (fun _ => List.length_replicate ..) _

theorem symbolWave_idle (p : Params) : symbolWave p Config.idle = List.replicate (8 * p.div) false :=
  flatMap_replicate_of_const (by decide) p.div

/-- The positions of the high run of a code byte, then those of its low part. -/
theorem highRun_bits : ∀ h, h < 9 →
    (∀ i ∈ [7, 6, 5, 4, 3, 2, 1, 0].take h, (highRun h).getLsbD i = true) ∧
      ∀ i ∈ [7, 6, 5, 4, 3, 2, 1, 0].drop h, (highRun h).getLsbD i = false := by decide

theorem symbolWave_highRun (p : Params) {h : Nat} (hh : h < 9) :
    symbolWave p (highRun h) = List.replicate (h * p.div) true ++ List.replicate ((8 - h) * p.div) false := by
  obtain ⟨hhigh, hlow⟩ := highRun_bits h hh
  have htake : ([7, 6, 5, 4, 3, 2, 1, 0].take h).length = h := by
    rw [List.length_take]
    exact Nat.min_eq_left (Nat.le_of_lt_succ hh)
  rw [symbolWave, ← List.take_append_drop h [7, 6, 5, 4, 3, 2, 1, 0], List.flatMap_append,
    flatMap_replicate_of_const hhigh, flatMap_replicate_of_const hlow, htake, List.length_drop]
  rfl

/-! ### The code table -/

/-- `h_x` of R114: how many bits of the symbol for bit `x` are high. -/
def highBits (p : Params) (x : Bool) : Nat := if x then p.h1 else p.h0

/-- R114, taken apart. -/
theorem codesOk_iff (p : Params) : p.codesOk = true ↔
    p.code0 = highRun p.h0 ∧ p.code1 = highRun p.h1 ∧ 1 ≤ p.h0 ∧ p.h0 < p.h1 ∧ p.h1 ≤ 7 := by
  simp [Params.codesOk, and_assoc]

section
variable {p : Params} (hp : p.codesOk = true)
include hp

theorem highBits_bounds (x : Bool) : p.h0 ≤ highBits p x ∧ 1 ≤ highBits p x ∧ highBits p x ≤ 7 := by
  obtain ⟨-, -, h0, h01, h1⟩ := (codesOk_iff p).mp hp
  cases x with
  | false => exact ⟨Nat.le_refl _, h0, (Nat.le_of_lt h01).trans h1⟩
  | true => exact ⟨Nat.le_of_lt h01, h0.trans (Nat.le_of_lt h01), h1⟩

theorem code_eq_highRun (x : Bool) : code p x = highRun (highBits p x) := by
  obtain ⟨hc0, hc1, -⟩ := (codesOk_iff p).mp hp
  cases x with
  | false => exact hc0
  | true => exact hc1

theorem symbolWave_code (x : Bool) : symbolWave p (code p x) =
    List.replicate (highBits p x * p.div) true ++ List.replicate ((8 - highBits p x) * p.div) false := by
  rw [code_eq_highRun hp, symbolWave_highRun p (Nat.lt_of_le_of_lt (highBits_bounds hp x).2.2 (by decide))]

end

/-- Settles O36: a data symbol is a high run by R114, and the IDLE has no high bit. -/
theorem dataSymbolIsOneHighPulse : Obligations.DataSymbolIsOneHighPulse := by
  intro p hp
  obtain ⟨-, -, h0, h01, h1⟩ := (codesOk_iff p).mp hp
  refine ⟨fun heq => ?_, h0, h01, h1, symbolWave_code hp false, symbolWave_code hp true, symbolWave_idle p⟩
  have hruns : p.h0 = p.h1 := congrArg leadingOnes heq
  omega

/-! ### The levels of a sequence -/

theorem wave_length (p : Params) (seq : List Byte) : (wave p seq).length = seq.length * (8 * p.div) :=
  length_flatMap_of_length (symbolWave_length p) seq

@[simp] theorem wave_nil (p : Params) : wave p [] = [] := rfl

@[simp] theorem wave_append (p : Params) (l l' : List Byte) : wave p (l ++ l') = wave p l ++ wave p l' :=
  List.flatMap_append

@[simp] theorem wave_singleton (p : Params) (b : Byte) : wave p [b] = symbolWave p b := by simp [wave]

/-- The cycles of a data symbol's high run are high in the wave (R115). -/
theorem wave_high {p : Params} (hp : p.codesOk = true) {seq : List Byte} {j r : Nat} {x : Bool}
    (hx : seq[j]? = some (code p x)) (hr : r < highBits p x * p.div) :
    (wave p seq)[8 * p.div * j + r]? = some true := by
  have hlt : r < 8 * p.div :=
    hr.trans_le (Nat.mul_le_mul_right p.div ((highBits_bounds hp x).2.2.trans (Nat.le_succ 7)))
  have hj : (8 * p.div * j + r) / (8 * p.div) = j := by
    rw [Nat.mul_add_div (Nat.zero_lt_of_lt hlt), Nat.div_eq_of_lt hlt, Nat.add_zero]
  rw [wave, getElem?_flatMap_of_length (Nat.zero_lt_of_lt hlt) (symbolWave_length p) seq _ (by rw [hj]; exact hx),
    Nat.mul_add_mod, Nat.mod_eq_of_lt hlt, symbolWave_code hp x, List.getElem?_append_left (by simpa using hr),
    List.getElem?_replicate_of_lt hr]

/-- A data symbol that begins inside a stretch of the waveform brings a high cycle into it. -/
theorem exists_high_of_dataSymbol {p : Params} (hp : p.codesOk = true) {i : Instr} (henc : isEnc i = true)
    {start n j : Nat} (hin : start + n < (wave p (instrSymbols p i)).length) (h8 : j % 9 ≠ 8)
    (hlo : start ≤ 8 * p.div * j) (hhi : 8 * p.div * j ≤ start + n) :
    ∃ k, k ≤ n ∧ (wave p (instrSymbols p i))[start + k]? = some true := by
  rw [wave_length, Nat.mul_comm] at hin
  have hj : j < (instrSymbols p i).length := Nat.lt_of_mul_lt_mul_left (hhi.trans_lt hin)
  have hdiv : 0 < p.div := Nat.pos_of_ne_zero fun h0 => by simp [h0] at hin
  obtain ⟨x, hx⟩ := instrSymbols_getElem?_data p henc hj h8
  have hhigh := wave_high hp hx (r := 0) (Nat.mul_pos (highBits_bounds hp x).2.1 hdiv)
  refine ⟨8 * p.div * j - start, by omega, ?_⟩
  rwa [Nat.add_sub_cancel' hlo]

/-- Settles O37: from a low cycle of a data symbol, or from any cycle of an IDLE, the next symbol that is no IDLE
begins within the bound; it is the next one but one at most, when the next is an IDLE. -/
theorem longestLowInsideCommand : Obligations.LongestLowInsideCommand := by
  intro p i start hp henc hin
  obtain ⟨-, -, h0, h01, h1⟩ := (codesOk_iff p).mp hp
  have hlow : (8 - p.h0) * p.div = 8 * p.div - p.h0 * p.div := Nat.sub_mul ..
  have hone : p.div ≤ p.h0 * p.div := Nat.le_mul_of_pos_left _ h0
  refine ⟨by omega, ?_⟩
  have hsym : 0 < 8 * p.div := Nat.pos_of_ne_zero fun hz => by simp [wave_length, hz] at hin
  obtain ⟨j, hj⟩ : ∃ j, j = start / (8 * p.div) := ⟨_, rfl⟩
  obtain ⟨r, hr⟩ : ∃ r, r = start % (8 * p.div) := ⟨_, rfl⟩
  have hstart : 8 * p.div * j + r = start := by rw [hj, hr, Nat.div_add_mod]
  have hrlt : r < 8 * p.div := hr ▸ Nat.mod_lt _ hsym
  have hnext : 8 * p.div * (j + 1) = 8 * p.div * j + 8 * p.div := Nat.mul_succ ..
  have hnext2 : 8 * p.div * (j + 2) = 8 * p.div * (j + 1) + 8 * p.div := Nat.mul_succ ..
  by_cases hidle : (j + 1) % 9 = 8
  · have hjlt : j < (instrSymbols p i).length := by
      rw [wave_length, Nat.mul_comm (List.length _)] at hin
      exact Nat.lt_of_mul_lt_mul_left (a := 8 * p.div) (by omega)
    obtain ⟨x, hx⟩ := instrSymbols_getElem?_data p henc hjlt (by omega)
    by_cases hhigh : r < highBits p x * p.div
    · exact ⟨0, Nat.zero_le _, by rw [Nat.add_zero, ← hstart]; exact wave_high hp hx hhigh⟩
    · have hpulse : p.h0 * p.div ≤ highBits p x * p.div := Nat.mul_le_mul_right _ (highBits_bounds hp x).1
      exact exists_high_of_dataSymbol hp henc hin (j := j + 2) (by omega) (by omega) (by omega)
  · exact exists_high_of_dataSymbol hp henc hin hidle (by omega) (by omega)

end Sys2Proof.Machine
end

section
/-! What is left in the serializer (R108): a symbol's cycles count down, so that the buffer always empties; and between
ENC commands at most an IDLE is left, which is low (R112, R113, R117). -/

namespace Sys2Proof.Machine

/-! ### The cycles left -/

/-- What a shift can do (R108 step 1). -/
inductive ShiftMove (p : Params) (z : Serializer) : Serializer → Prop
  | empty (hbits : z.shBits = 0) : ShiftMove p z { z with divCnt := 0 }
  | insideBit {m : Nat} (hbits : z.shBits = m + 1) (hcnt : z.divCnt + 1 < p.div) :
      ShiftMove p z { z with divCnt := z.divCnt + 1 }
  | bitEnds {m : Nat} (hbits : z.shBits = m + 1) (hcnt : z.divCnt + 1 = p.div) :
      ShiftMove p z { z with sh := z.sh <<< 1, shBits := m, divCnt := 0 }

theorem shift_move {p : Params} {z : Serializer} (hlt : z.divCnt < p.div) : ShiftMove p z (z.shift p) := by
  cases hbits : z.shBits with
  | zero =>
    rw [shift_empty hbits]
    exact .empty hbits
  | succ m =>
    by_cases hd : z.divCnt = p.div - 1
    · rw [shift_bitEnd (by omega) hd, hbits]
      exact .bitEnds hbits (by omega)
    · rw [shift_midBit (by omega) hd]
      exact .insideBit hbits (by omega)

theorem shift_divCnt_lt {p : Params} {z : Serializer} (hlt : z.divCnt < p.div) : (z.shift p).divCnt < p.div := by
  have hm := shift_move hlt
  generalize z.shift p = z' at hm
  cases hm with
  | empty => exact Nat.zero_lt_of_lt hlt
  | insideBit _ hcnt => exact hcnt
  | bitEnds => exact Nat.zero_lt_of_lt hlt

theorem cyclesLeft_of_empty {p : Params} {z : Serializer} (hbits : z.shBits = 0) : z.cyclesLeft p = 0 := by
  simp [Serializer.cyclesLeft, hbits]

theorem cyclesLeft_of_shifting {p : Params} {z : Serializer} {m : Nat} (hbits : z.shBits = m + 1) :
    z.cyclesLeft p = m * p.div + (p.div - z.divCnt) := by
  simp [Serializer.cyclesLeft, hbits]

theorem cyclesLeft_eq_zero_iff {p : Params} {z : Serializer} (hlt : z.divCnt < p.div) :
    z.cyclesLeft p = 0 ↔ z.shBits = 0 := by
  cases hbits : z.shBits with
  | zero => simp [cyclesLeft_of_empty hbits]
  | succ m =>
    rw [cyclesLeft_of_shifting hbits]
    omega

theorem cyclesLeft_of_loaded {p : Params} {z : Serializer} (hbits : z.shBits = 8) (hcnt : z.divCnt = 0) :
    z.cyclesLeft p = 8 * p.div := by
  rw [cyclesLeft_of_shifting hbits, hcnt]
  omega

theorem cyclesLeft_le {p : Params} {z : Serializer} (hle : z.shBits ≤ 8) : z.cyclesLeft p ≤ 8 * p.div := by
  cases hbits : z.shBits with
  | zero => simp [cyclesLeft_of_empty hbits]
  | succ m =>
    have hbits7 : m * p.div ≤ 7 * p.div := Nat.mul_le_mul_right _ (by omega)
    rw [cyclesLeft_of_shifting hbits]
    omega

/-- Each shift takes one cycle off. -/
theorem cyclesLeft_shift {p : Params} {z : Serializer} (hlt : z.divCnt < p.div) :
    (z.shift p).cyclesLeft p = z.cyclesLeft p - 1 := by
  have hm := shift_move hlt
  generalize z.shift p = z' at hm
  cases hm with
  | empty hbits => rw [cyclesLeft_of_empty hbits, cyclesLeft_of_empty (by exact hbits)]
  | insideBit hbits =>
    rw [cyclesLeft_of_shifting hbits, cyclesLeft_of_shifting (by exact hbits), Nat.sub_add_eq]
    omega
  | @bitEnds m hbits hcnt =>
    rw [cyclesLeft_of_shifting hbits]
    cases m with
    | zero =>
      rw [cyclesLeft_of_empty rfl]
      omega
    | succ k =>
      rw [cyclesLeft_of_shifting rfl, Nat.succ_mul, Nat.sub_zero]
      omega

theorem cyclesLeft_edge {p : Params} {z : Serializer} (hlt : z.divCnt < p.div) (hl : z.loaded p = none)
    (w : Option Byte) : (serializerEdge p w z).cyclesLeft p = z.cyclesLeft p - 1 := by
  rw [serializerEdge_of_loaded_none hl, ← cyclesLeft_shift hlt]
  simp [Serializer.cyclesLeft]

/-! ### Low between ENC commands -/

/-- An IDLE on the output is low, and so is an empty register (R31, R115). -/
theorem Serializer.OnlyIdleLeft.serOut {z : Serializer} (h : z.OnlyIdleLeft) : z.serOut = false := by
  unfold Serializer.serOut
  split
  · rw [h.2 ‹_›]
    decide
  · rfl

theorem line_low {s : State} (hpin : s.arch.gpioLevel = false) (hser : s.serializer.serOut = false) :
    s.line = false := by
  cases h : s.arch.pinMode with
  | serial => rw [line_of_serial h, hser]
  | gpio => rw [line_of_gpio h, hpin]

theorem Inv.line_low {p : Params} {s : State} (h : Inv p s) (henc : s.encExecuting = false) : s.line = false :=
  Machine.line_low h.gpio_low (Serializer.OnlyIdleLeft.serOut (h.quiet henc))

/-- Settles O46: outside an ENC command the invariant leaves at most an IDLE in the serializer, and every run from reset
keeps the invariant. -/
theorem lineLowOutsideEncCommands : Obligations.LineLowOutsideEncCommands := by
  refine ⟨fun p s => Inv.line_low, fun p s t hp h hs => (inv_stepAt hp h hs).line_low, fun p hs n t hp hrun => ?_⟩
  have hinv : Inv p t :=
    cycles_induction (I := Inv p) (fun _ _ => inv_stepAt hp) n _ t (resetMeetsInvariant p hs hp) hrun
  exact hinv.line_low

/-! ### Completion -/

/-- The cycle in which an ENC command completes is one of DRAIN with the buffer empty. -/
theorem drain_of_completes {p : Params} {s t : State} (hr : s.rst = false) (henc : s.encExecuting = true)
    (hs : stepAt p s = .next t) (hdone : t.sequencer.busy = false) :
    s.sequencer.phase = .drain ∧ s.serializer.txbufFull = false := by
  obtain ⟨hbusy, hop⟩ := (encExecuting_iff s).mp henc
  rcases stepAt_next_cases hs with ⟨hr', -⟩ | ⟨ha, -⟩ | ⟨-, -, rfl, -⟩
  · simp [hr] at hr'
  · simp [accepts_false_of_busy hbusy] at ha
  · have hm := sequencerEdge_move s.txReady s.sequencer
    rw [clockEdge_sequencer] at hdone
    generalize sequencerEdge s.txReady s.sequencer = q at hm hdone
    cases hm with
    | stays => simp [hbusy] at hdone
    | sends => simp [hbusy] at hdone
    | completes _ _ hphase hready => exact ⟨hphase, by simpa [State.txReady] using hready⟩
    | holdEnds _ hlatch => simp [hop] at hlatch
    | holdGoesOn _ hlatch => simp [hop] at hlatch

/-- Settles O45: in DRAIN with the buffer empty the invariant has the IDLE just loaded, and the edge takes one cycle off
it. -/
theorem completionLeavesOnlyIdle : Obligations.CompletionLeavesOnlyIdle := by
  intro p s t hp hinv hr henc hs hdone
  obtain ⟨hphase, hempty⟩ := drain_of_completes hr henc hs hdone
  have hinv' : Inv p t := inv_stepAt hp hinv hs
  have henc' : t.encExecuting = false := by simp [State.encExecuting, hdone]
  rw [drainPhaseCompletesWhenReady p s hr henc hphase] at hs
  cases hs
  obtain ⟨hidx, -, hidle⟩ := hinv.drain_done henc hphase
  rw [hempty] at hidle
  obtain ⟨-, hbits, hcnt⟩ : s.serializer.sh = Config.idle ∧ s.serializer.shBits = 8 ∧ s.serializer.divCnt = 0 :=
    hidle
  have hleft : (serializerEdge p none s.serializer).cyclesLeft p = 8 * p.div - 1 := by
    rw [cyclesLeft_edge hinv.divCnt_lt (loaded_eq_none_iff.mpr (.inr hempty)), cyclesLeft_of_loaded hbits hcnt]
  have hpos : (serializerEdge p none s.serializer).shBits ≠ 0 := fun h0 => by
    have hdiv : 1 ≤ p.div := ((countersOk_iff p).mp hp).1
    rw [cyclesLeft_of_empty h0] at hleft
    omega
  obtain ⟨hempty', hidle'⟩ := hinv'.quiet henc'
  exact ⟨by simpa [State.txReady] using hempty', hidx, hidle' (Nat.pos_of_ne_zero hpos),
    by rw [← hleft, Serializer.cyclesLeft, if_neg hpos], hinv'.line_low henc'⟩

/-! ### A stalled serializer -/

section
variable {p : Params} {ser : Option Byte → Serializer → Serializer} {s : State}

theorem stepVia_of_stalled (henc : s.encExecuting = true) (hstall : s.txReady = false) (hr : s.rst = false) :
    stepVia p ser (execAt p) s = .next { s with serializer := ser none s.serializer, host := hostWaits s.host } := by
  obtain ⟨hbusy, hop⟩ := (encExecuting_iff s).mp henc
  have hno : handsOver s.txReady s.sequencer = false := by simp [handsOver, hstall]
  have hedge : sequencerEdge s.txReady s.sequencer = s.sequencer := by rw [hstall, sequencerEdge_waits hop]
  simp [stepVia, advance, hr, accepts_false_of_busy hbusy, txWrite_eq_none hno, hno, clockEdge, hedge]

end

/-- With a full buffer the register takes it when its last cycle is over, at once if it is empty. -/
theorem serializerRun_empties {p : Params} (c : Nat) {z : Serializer} (hlt : z.divCnt < p.div)
    (hc : z.cyclesLeft p ≤ c + 1) :
    ∃ k, k ≤ c + 1 ∧ (serializerRun p (List.replicate k none) z).txbufFull = false := by
  cases hfull : z.txbufFull with
  | false => exact ⟨0, Nat.zero_le _, hfull⟩
  | true =>
    by_cases hbits : (z.shift p).shBits = 0
    · refine ⟨1, by omega, ?_⟩
      show (serializerEdge p none z).txbufFull = false
      rw [serializerEdge_of_load hbits hfull]
      rfl
    · have hedge : serializerEdge p none z = z.shift p := serializerEdge_of_shifting hbits none
      have hleft : z.cyclesLeft p - 1 ≠ 0 := by
        rwa [← cyclesLeft_shift hlt, Ne, cyclesLeft_eq_zero_iff (shift_divCnt_lt hlt)]
      cases c with
      | zero => omega
      | succ c =>
        obtain ⟨k, hk, hrun⟩ := serializerRun_empties c (shift_divCnt_lt hlt) (by rw [cyclesLeft_shift hlt]; omega)
        refine ⟨k + 1, by omega, ?_⟩
        rw [List.replicate_succ, serializerRun, List.foldl_cons, hedge]
        exact hrun

/-- Settles O47: with the buffer full a cycle leaves the sequencer as it is, by induction on the number of cycles; and
the serializer of R108 takes the buffered symbol within the cycles the present one has left. -/
theorem stalledSerializerHangs : Obligations.StalledSerializerHangs := by
  refine ⟨fun p ser s n hser => ?_, fun p z hle hlt => ?_⟩
  · induction n generalizing s with
    | zero =>
      intro henc hstall _
      have hbusy := ((encExecuting_iff s).mp henc).1
      exact ⟨s, rfl, rfl, rfl, hstall, by simp [State.cmdReady, hbusy], acceptedWord_of_busy hbusy⟩
    | succ n ih =>
      intro henc hstall hfree
      have hstep := stepVia_of_stalled (p := p) (ser := ser) henc hstall (rst_of_resetFree hfree)
      obtain ⟨t, hrun, ht⟩ := ih { s with serializer := ser none s.serializer, host := hostWaits s.host } henc
        (by simpa [State.txReady] using hser none s.serializer (by simpa [State.txReady] using hstall))
        (resetFree_hostWaits hfree)
      exact ⟨t, cycles_succ hstep hrun, ht⟩
  · exact serializerRun_empties (8 * p.div) hlt ((cyclesLeft_le hle).trans (Nat.le_succ _))

end Sys2Proof.Machine
end

section
/-! The levels still to come from the shift register (R108, R111): a clock edge takes the present cycle's level off, and
a loaded symbol adds its own. -/

namespace Sys2Proof.Machine

/-! ### The bits left in the shift register -/

/-- The bits of the shift register not yet fully shifted out, the one on the output first. -/
def Serializer.bitsLeft (z : Serializer) : List Bool :=
  ([7, 6, 5, 4, 3, 2, 1, 0].take z.shBits).map z.sh.getLsbD

/-- The levels of bits that stand for `d` cycles each, the first having stood for `c` cycles already. -/
def bitLevels (d c : Nat) : List Bool → List Bool
  | [] => []
  | b :: bs => List.replicate (d - c) b ++ bs.flatMap (List.replicate d)

/-- The levels the shift register still gives, the present cycle's first. -/
def Serializer.levelsLeft (p : Params) (z : Serializer) : List Bool := bitLevels p.div z.divCnt z.bitsLeft

theorem bitLevels_zero (d : Nat) (bs : List Bool) : bitLevels d 0 bs = bs.flatMap (List.replicate d) := by
  cases bs <;> rfl

theorem mem_of_mem_bitLevels {d c : Nat} {bs : List Bool} {x : Bool} (h : x ∈ bitLevels d c bs) : x ∈ bs := by
  cases bs with
  | nil => exact h
  | cons b bs =>
    rcases List.mem_append.mp h with hfirst | hrest
    · exact List.eq_of_mem_replicate hfirst ▸ List.mem_cons_self
    · obtain ⟨y, hy, hx⟩ := List.mem_flatMap.mp hrest
      exact List.eq_of_mem_replicate hx ▸ List.mem_cons_of_mem b hy

theorem levelsLeft_of_empty (p : Params) {z : Serializer} (hbits : z.shBits = 0) : z.levelsLeft p = [] := by
  simp [Serializer.levelsLeft, Serializer.bitsLeft, hbits, bitLevels]

theorem bitsLeft_of_shifting {z : Serializer} {m : Nat} (hbits : z.shBits = m + 1) :
    z.bitsLeft = z.sh.getLsbD 7 :: ([6, 5, 4, 3, 2, 1, 0].take m).map z.sh.getLsbD := by
  simp [Serializer.bitsLeft, hbits]

/-- A left shift brings the next bit to bit 7. -/
theorem map_getLsbD_shiftLeft (b : Byte) {m : Nat} (hm : m < 8) :
    ([7, 6, 5, 4, 3, 2, 1, 0].take m).map (b <<< 1).getLsbD = ([6, 5, 4, 3, 2, 1, 0].take m).map b.getLsbD := by
  interval_cases m <;> simp

theorem levelsLeft_length {p : Params} {z : Serializer} (hle : z.shBits ≤ 8) :
    (z.levelsLeft p).length = z.cyclesLeft p := by
  cases hbits : z.shBits with
  | zero => rw [levelsLeft_of_empty p hbits, cyclesLeft_of_empty hbits, List.length_nil]
  | succ m =>
    have hm : min m 7 = m := Nat.min_eq_left (by omega)
    rw [Serializer.levelsLeft, bitsLeft_of_shifting hbits, cyclesLeft_of_shifting hbits, bitLevels, List.length_append,
      length_flatMap_of_length (fun _ => List.length_replicate ..)]
    simp [hm, Nat.add_comm]

theorem serOut_eq_headD {p : Params} {z : Serializer} (hlt : z.divCnt < p.div) :
    z.serOut = (z.levelsLeft p).headD false := by
  cases hbits : z.shBits with
  | zero => simp [Serializer.serOut, levelsLeft_of_empty p hbits, hbits]
  | succ m =>
    have hpos : p.div - z.divCnt = p.div - z.divCnt - 1 + 1 := by omega
    rw [Serializer.levelsLeft, bitsLeft_of_shifting hbits, bitLevels, hpos, List.replicate_succ]
    simp [Serializer.serOut, hbits]

theorem levelsLeft_of_loaded {p : Params} {z : Serializer} (hbits : z.shBits = 8) (hcnt : z.divCnt = 0) :
    z.levelsLeft p = symbolWave p z.sh := by
  rw [Serializer.levelsLeft, hcnt, bitLevels_zero, Serializer.bitsLeft, hbits, List.flatMap_map]
  rfl

/-- An IDLE gives low levels alone. -/
theorem Serializer.OnlyIdleLeft.levelsLeft {z : Serializer} (h : z.OnlyIdleLeft) {p : Params} (hle : z.shBits ≤ 8) :
    z.levelsLeft p = List.replicate (z.cyclesLeft p) false := by
  cases hbits : z.shBits with
  | zero => rw [levelsLeft_of_empty p hbits, cyclesLeft_of_empty hbits, List.replicate_zero]
  | succ m =>
    refine List.eq_replicate_iff.mpr ⟨levelsLeft_length hle, fun x hx => ?_⟩
    have hbit := mem_of_mem_bitLevels hx
    rw [Serializer.bitsLeft, h.2 (by omega)] at hbit
    obtain ⟨i, -, rfl⟩ := List.mem_map.mp hbit
    exact BitVec.getLsbD_zero

/-! ### The clock edge -/

@[simp] theorem levelsLeft_write (p : Params) (z : Serializer) (w : Option Byte) :
    (z.write w).levelsLeft p = z.levelsLeft p := by
  simp [Serializer.levelsLeft, Serializer.bitsLeft]

theorem levelsLeft_shift {p : Params} {z : Serializer} (hle : z.shBits ≤ 8) (hlt : z.divCnt < p.div) :
    (z.shift p).levelsLeft p = (z.levelsLeft p).tail := by
  have hm := shift_move hlt
  generalize z.shift p = z' at hm
  cases hm with
  | empty hbits =>
    rw [levelsLeft_of_empty p hbits, levelsLeft_of_empty p (by exact hbits)]
    rfl
  | insideBit hbits hcnt =>
    have hpos : p.div - z.divCnt = p.div - (z.divCnt + 1) + 1 := by omega
    rw [Serializer.levelsLeft, Serializer.levelsLeft, bitsLeft_of_shifting hbits,
      bitsLeft_of_shifting (by exact hbits), bitLevels, bitLevels, hpos, List.replicate_succ]
    rfl
  | bitEnds hbits hcnt =>
    have hone : p.div - z.divCnt = 1 := by omega
    rw [Serializer.levelsLeft, Serializer.levelsLeft, bitLevels_zero, bitsLeft_of_shifting hbits, bitLevels, hone,
      Serializer.bitsLeft, map_getLsbD_shiftLeft _ (by simp only; omega)]
    rfl

theorem levelsLeft_edge {p : Params} {z : Serializer} (hle : z.shBits ≤ 8) (hlt : z.divCnt < p.div)
    (w : Option Byte) :
    (serializerEdge p w z).levelsLeft p = (z.levelsLeft p).tail ++ wave p (z.loaded p).toList := by
  rw [← levelsLeft_shift hle hlt]
  cases hl : z.loaded p with
  | none => rw [serializerEdge_of_loaded_none hl, levelsLeft_write, Option.toList_none, wave_nil, List.append_nil]
  | some b =>
    rw [serializerEdge_of_loaded_some hl, levelsLeft_write, levelsLeft_of_loaded rfl rfl,
      levelsLeft_of_empty p (loaded_eq_some_iff.mp hl).1, Option.toList_some, wave_singleton, List.nil_append]

end Sys2Proof.Machine
end

section
/-! The waveform of an ENC command (R109, R111): what the serializer's output will be, as a list of levels, of which each
cycle without acceptance takes off the first. -/

namespace Sys2Proof.Machine

/-! ### Coherent states -/

/-- The part of the invariant that the waveform rests on; it says nothing of the transaction-level state. -/
structure Coherent (p : Params) (s : State) : Prop where
  symbols : s.sequencer.SymbolsOk
  ranges : s.serializer.RangesOk p
  follows : s.serializer.Follows s.sequencer

theorem Coherent.clockEdge {p : Params} {s : State} (h : Coherent p s) :
    Coherent p (clockEdge (serializerEdge p) (txWrite p s) s) :=
  ⟨h.symbols.move (sequencerEdge_move _ _), h.ranges.edge _, h.follows.clockEdge h.symbols⟩

theorem stepAt_of_symbolsOk {p : Params} {s : State} (h : s.sequencer.SymbolsOk) (hr : s.rst = false)
    (ha : s.accepts = false) : stepAt p s = .next (clockEdge (serializerEdge p) (txWrite p s) s) :=
  stepAt_of_waits hr ha fun hgo => by
    rw [txWrite_eq_symAt hgo]
    exact h.exists_symAt hgo p

/-! ### The levels to come -/

/-- A symbol that moves on along its way to the line adds no level and removes none. -/
theorem levels_clockEdge {p : Params} {s t : State} (h : Coherent p s)
    (ht : t = clockEdge (serializerEdge p) (txWrite p s) s) :
    t.serializer.levelsLeft p ++ wave p (inFlight p t) =
      (s.serializer.levelsLeft p).tail ++ wave p (inFlight p s) := by
  rw [inFlight_clockEdge h.symbols, ← ht, wave_append, ← List.append_assoc,
    ← levelsLeft_edge h.ranges.shBits_le h.ranges.divCnt_lt (txWrite p s)]
  rw [ht]
  rfl

/-- The levels that the serializer's output takes from the present cycle on, up to the end of what it has been given,
as long as no word is accepted. An ENC command starts over an IDLE's rest with two cycles at least before its first
symbol is on the output, one if the buffer has been filled; from then on a symbol is buffered before the one in the
register is over, so that the symbols follow without a gap (R109, R111). -/
inductive Plays (p : Params) (s : State) : List Bool → Prop
  | ready (hready : s.sequencer.busy = false) (hleft : s.serializer.cyclesLeft p < 8 * p.div) :
      Plays p s (List.replicate (s.serializer.cyclesLeft p) false)
  | starts (hbusy : s.sequencer.busy = true) (hop : s.sequencer.op = .enc) (hphase : s.sequencer.phase = .send)
      (hidle : s.serializer.OnlyIdleLeft) :
      Plays p s (List.replicate (max 2 (s.serializer.cyclesLeft p)) false ++ wave p (inFlight p s))
  | primed (hbusy : s.sequencer.busy = true) (hop : s.sequencer.op = .enc) (hfull : s.serializer.txbufFull = true)
      (hbits : s.serializer.shBits = 0) : Plays p s (false :: wave p (inFlight p s))
  | streams (hbusy : s.sequencer.busy = true) (hop : s.sequencer.op = .enc) (hbits : s.serializer.shBits ≠ 0)
      (hfed : s.serializer.txbufFull = true ∨ s.serializer.shBits = 8 ∧ s.serializer.divCnt = 0) :
      Plays p s (s.serializer.levelsLeft p ++ wave p (inFlight p s))

/-! ### The present cycle -/

theorem Coherent.onlyIdleLeft {p : Params} {s : State} (h : Coherent p s) (hready : s.sequencer.busy = false) :
    s.serializer.OnlyIdleLeft :=
  h.follows.quiet (by simp [hready])

/-- In SEND a symbol is pending. -/
theorem inFlight_ne_nil_of_send (p : Params) {s : State} (hsym : s.sequencer.SymbolsOk)
    (hb : s.sequencer.busy = true) (ho : s.sequencer.op = .enc) (hp : s.sequencer.phase = .send) :
    inFlight p s ≠ [] := by
  obtain ⟨v, hv⟩ := hsym.exists_symAt ((handsOver_iff true _).mpr ⟨hb, ho, hp, rfl⟩) p
  have hlt := hsym.send_left hb ho hp
  have hsplit : s.sequencer.nSym - s.sequencer.symIdx = s.sequencer.nSym - (s.sequencer.symIdx + 1) + 1 := by omega
  rw [inFlight_eq, pendingSymbols_of_send p hb ho hp, hsplit, List.range'_succ, List.filterMap_cons_some hv]
  simp

theorem inFlight_ne_nil_of_full (p : Params) {s : State} (h : s.serializer.txbufFull = true) :
    inFlight p s ≠ [] := by
  simp [inFlight_eq, buffered_of_full h]

theorem le_wave_length {p : Params} {seq : List Byte} (h : seq ≠ []) : 8 * p.div ≤ (wave p seq).length := by
  rw [wave_length]
  exact Nat.le_mul_of_pos_left _ (List.length_pos_iff.mpr h)

theorem levelsLeft_ne_nil {p : Params} {z : Serializer} (h : z.RangesOk p) (hbits : z.shBits ≠ 0) :
    z.levelsLeft p ≠ [] := by
  rw [← List.length_pos_iff, levelsLeft_length h.shBits_le, Nat.pos_iff_ne_zero]
  exact mt (cyclesLeft_eq_zero_iff h.divCnt_lt).mp hbits

/-- The block is busy as long as a whole symbol or more is to come (R109, R112). -/
theorem Plays.busy_iff {p : Params} {s : State} {ls : List Bool} (h : Plays p s ls) (hcoh : Coherent p s) :
    s.sequencer.busy = true ↔ 8 * p.div ≤ ls.length := by
  cases h with
  | ready hready hleft =>
    rw [List.length_replicate, hready]
    exact iff_of_false nofun (Nat.not_le.mpr hleft)
  | starts hbusy hop hphase hidle =>
    rw [List.length_append]
    exact iff_of_true hbusy ((le_wave_length (inFlight_ne_nil_of_send p hcoh.symbols hbusy hop hphase)).trans
      (Nat.le_add_left ..))
  | primed hbusy hop hfull hbits =>
    exact iff_of_true hbusy ((le_wave_length (inFlight_ne_nil_of_full p hfull)).trans (Nat.le_succ _))
  | streams hbusy hop hbits hfed =>
    rw [List.length_append, levelsLeft_length hcoh.ranges.shBits_le]
    refine iff_of_true hbusy ?_
    rcases hfed with hfull | ⟨h8, h0⟩
    · exact (le_wave_length (inFlight_ne_nil_of_full p hfull)).trans (Nat.le_add_left ..)
    · rw [cyclesLeft_of_loaded h8 h0]
      exact Nat.le_add_right ..

/-- The first level is on the output. -/
theorem Plays.serOut_eq {p : Params} {s : State} {ls : List Bool} (h : Plays p s ls) (hcoh : Coherent p s) :
    s.serializer.serOut = ls.headD false := by
  cases h with
  | ready hready hleft =>
    rw [(hcoh.onlyIdleLeft hready).serOut]
    cases s.serializer.cyclesLeft p <;> rfl
  | starts hbusy hop hphase hidle =>
    have hpos : max 2 (s.serializer.cyclesLeft p) = max 2 (s.serializer.cyclesLeft p) - 1 + 1 := by omega
    rw [hidle.serOut, hpos]
    rfl
  | primed hbusy hop hfull hbits =>
    rw [serOut_eq_headD hcoh.ranges.divCnt_lt, levelsLeft_of_empty p hbits]
    rfl
  | streams hbusy hop hbits hfed =>
    obtain ⟨x, l, hl⟩ := List.exists_cons_of_ne_nil (levelsLeft_ne_nil hcoh.ranges hbits)
    rw [serOut_eq_headD hcoh.ranges.divCnt_lt, hl]
    rfl

/-! ### The next cycle -/

/-- In SEND with the buffer empty the buffer is full after the cycle. -/
theorem full_of_sends {p : Params} {s : State} (hsym : s.sequencer.SymbolsOk) (hbusy : s.sequencer.busy = true)
    (hop : s.sequencer.op = .enc) (hphase : s.sequencer.phase = .send) (hempty : s.serializer.txbufFull = false) :
    (serializerEdge p (txWrite p s) s.serializer).txbufFull = true := by
  have hgo : handsOver s.txReady s.sequencer = true :=
    (handsOver_iff ..).mpr ⟨hbusy, hop, hphase, by simp [State.txReady, hempty]⟩
  obtain ⟨v, hv⟩ := hsym.exists_symAt hgo p
  rw [txWrite_eq_symAt hgo, hv]
  rfl

/-- An ENC command goes on unless it is in DRAIN with the buffer empty. -/
theorem sequencerEdge_goes_on {s : State} (hbusy : s.sequencer.busy = true) (hop : s.sequencer.op = .enc)
    (h : s.serializer.txbufFull = true ∨ s.sequencer.phase = .send) :
    (sequencerEdge s.txReady s.sequencer).busy = true ∧ (sequencerEdge s.txReady s.sequencer).op = .enc := by
  have hm := sequencerEdge_move s.txReady s.sequencer
  generalize sequencerEdge s.txReady s.sequencer = q at hm
  cases hm with
  | stays => exact ⟨hbusy, hop⟩
  | sends => exact ⟨hbusy, hop⟩
  | completes _ _ hphase hready =>
    rcases h with hfull | hsend
    · simp [State.txReady, hfull] at hready
    · simp [hphase] at hsend
  | holdEnds _ hlatch => simp [hop] at hlatch
  | holdGoesOn _ hlatch => simp [hop] at hlatch

/-- A full buffer is loaded into the register when that runs empty, and otherwise stays. -/
theorem edge_of_full {p : Params} {z : Serializer} (hfull : z.txbufFull = true) :
    (serializerEdge p none z).shBits ≠ 0 ∧ ((serializerEdge p none z).txbufFull = true ∨
      (serializerEdge p none z).shBits = 8 ∧ (serializerEdge p none z).divCnt = 0) := by
  by_cases hbits : (z.shift p).shBits = 0
  · rw [serializerEdge_of_load hbits hfull]
    exact ⟨nofun, .inr ⟨rfl, rfl⟩⟩
  · rw [serializerEdge_of_shifting hbits]
    exact ⟨hbits, .inl (by simpa using hfull)⟩

section
variable {p : Params} {s t : State} (hcoh : Coherent p s) (ht : t = clockEdge (serializerEdge p) (txWrite p s) s)
include hcoh ht

theorem cyclesLeft_of_empty_buffer (hempty : s.serializer.txbufFull = false) :
    t.serializer.cyclesLeft p = s.serializer.cyclesLeft p - 1 := by
  rw [ht]
  exact cyclesLeft_edge hcoh.ranges.divCnt_lt (loaded_eq_none_iff.mpr (.inr hempty)) _

theorem shBits_eq_zero_iff : t.serializer.shBits = 0 ↔ t.serializer.cyclesLeft p = 0 := by
  rw [ht]
  exact (cyclesLeft_eq_zero_iff (hcoh.ranges.edge _).divCnt_lt).symm

/-- With the buffer full the symbols stream on, or begin to. -/
theorem plays_of_full (hbusy : s.sequencer.busy = true) (hop : s.sequencer.op = .enc)
    (hfull : s.serializer.txbufFull = true) :
    Plays p t ((s.serializer.levelsLeft p).tail ++ wave p (inFlight p s)) := by
  have hw : txWrite p s = none := txWrite_of_stays fun _ _ => by simp [State.txReady, hfull]
  obtain ⟨hbusy', hop'⟩ := sequencerEdge_goes_on hbusy hop (.inl hfull)
  obtain ⟨hbits, hfed⟩ := edge_of_full (p := p) hfull
  rw [← levels_clockEdge hcoh ht]
  rw [ht, hw]
  exact .streams hbusy' hop' hbits hfed

/-- A hand-over before the register is empty keeps the symbols streaming. -/
theorem plays_of_send (hbusy : s.sequencer.busy = true) (hop : s.sequencer.op = .enc)
    (hphase : s.sequencer.phase = .send) (hempty : s.serializer.txbufFull = false)
    (hleft : 1 < s.serializer.cyclesLeft p) :
    Plays p t ((s.serializer.levelsLeft p).tail ++ wave p (inFlight p s)) := by
  obtain ⟨hbusy', hop'⟩ := sequencerEdge_goes_on hbusy hop (.inr hphase)
  have hbits : t.serializer.shBits ≠ 0 := by
    rw [Ne, shBits_eq_zero_iff hcoh ht, cyclesLeft_of_empty_buffer hcoh ht hempty]
    omega
  rw [← levels_clockEdge hcoh ht]
  rw [ht] at hbits ⊢
  exact .streams hbusy' hop' hbits (.inl (full_of_sends hcoh.symbols hbusy hop hphase hempty))

/-- A cycle in which no word is accepted takes the first level off. -/
theorem Plays.clockEdge {ls : List Bool} (h : Plays p s ls) : Plays p t ls.tail := by
  have hlevels := levels_clockEdge hcoh ht
  cases h with
  | ready hready hleft =>
    have hleft' := cyclesLeft_of_empty_buffer hcoh ht (hcoh.onlyIdleLeft hready).1
    rw [List.tail_replicate, ← hleft']
    exact .ready (by rw [ht, clockEdge_sequencer, sequencerEdge_idle hready, hready]) (by omega)
  | starts hbusy hop hphase hidle =>
    by_cases hlast : s.serializer.cyclesLeft p ≤ 1
    · have hbits' : t.serializer.shBits = 0 := by
        rw [shBits_eq_zero_iff hcoh ht, cyclesLeft_of_empty_buffer hcoh ht hidle.1]
        omega
      rw [levelsLeft_of_empty p hbits', hidle.levelsLeft hcoh.ranges.shBits_le, List.tail_replicate,
        Nat.sub_eq_zero_of_le hlast] at hlevels
      have hwave : wave p (inFlight p t) = wave p (inFlight p s) := hlevels
      obtain ⟨hbusy', hop'⟩ := sequencerEdge_goes_on hbusy hop (.inr hphase)
      rw [Nat.max_eq_left (hlast.trans one_le_two)]
      show Plays p t (false :: wave p (inFlight p s))
      rw [← hwave]
      rw [ht] at hbits' ⊢
      exact .primed hbusy' hop' (full_of_sends hcoh.symbols hbusy hop hphase hidle.1) hbits'
    · have hnonempty : List.replicate (s.serializer.cyclesLeft p) false ≠ [] := by
        rw [Ne, List.replicate_eq_nil_iff]
        omega
      rw [Nat.max_eq_right (by omega), List.tail_append_of_ne_nil hnonempty,
        ← hidle.levelsLeft hcoh.ranges.shBits_le]
      exact plays_of_send hcoh ht hbusy hop hphase hidle.1 (by omega)
  | primed hbusy hop hfull hbits =>
    have hnext := plays_of_full hcoh ht hbusy hop hfull
    rwa [levelsLeft_of_empty p hbits] at hnext
  | streams hbusy hop hbits hfed =>
    rw [List.tail_append_of_ne_nil (levelsLeft_ne_nil hcoh.ranges hbits)]
    cases hfull : s.serializer.txbufFull with
    | true => exact plays_of_full hcoh ht hbusy hop hfull
    | false =>
      obtain ⟨h8, h0⟩ : s.serializer.shBits = 8 ∧ s.serializer.divCnt = 0 := hfed.resolve_left (by simp [hfull])
      have hleft : s.serializer.cyclesLeft p = 8 * p.div := cyclesLeft_of_loaded h8 h0
      have hdiv : 0 < p.div := Nat.zero_lt_of_lt hcoh.ranges.divCnt_lt
      cases hphase : s.sequencer.phase with
      | send => exact plays_of_send hcoh ht hbusy hop hphase hfull (by omega)
      | drain =>
        have hready' : t.sequencer.busy = false := by
          rw [ht, clockEdge_sequencer, State.txReady, hfull, Bool.not_false, sequencerEdge_drain hbusy hop hphase]
        have hleft' := cyclesLeft_of_empty_buffer hcoh ht hfull
        have hcoh' : Coherent p t := ht ▸ hcoh.clockEdge
        have hidle' := hcoh'.onlyIdleLeft hready'
        rw [inFlight_of_ready hready' hidle'.1, hidle'.levelsLeft hcoh'.ranges.shBits_le, wave_nil,
          List.append_nil] at hlevels
        exact hlevels ▸ .ready hready' (by omega)

end

end Sys2Proof.Machine
end

section
/-! The runs of ENC commands (R105, R109, R111, R116): from the acceptance of a command by a block with a quiet
serializer, the busy cycles and the line follow from the levels the command plays. -/

namespace Sys2Proof.Machine

/-! ### The acceptance -/

theorem isQuiet_iff (p : Params) (z : Serializer) :
    z.isQuiet p = true ↔ z.OnlyIdleLeft ∧ z.shBits ≤ 8 ∧ z.divCnt < p.div := by
  simp [Serializer.isQuiet, Serializer.OnlyIdleLeft, Nat.pos_iff_ne_zero, or_iff_not_imp_left, and_assoc]

theorem symbolsOf_encode (p : Params) (i : Instr) : symbolsOf p (encode i) = instrSymbols p i := by
  simp [symbolsOf, decodeEncodeRoundTrip i]

theorem instrStart_symbolsOk (p : Params) {i : Instr} (henc : isEnc i = true) (q : Sequencer) :
    (instrStart p i q).SymbolsOk := by
  cases i with
  | latch | arm => cases henc
  | writeColor => exact ⟨.inr (.inr rfl), Nat.zero_le 27, nofun, fun _ _ _ => Nat.zero_lt_succ 26, nofun⟩
  | encodeByte => exact ⟨.inr (.inl rfl), Nat.zero_le 9, nofun, fun _ _ _ => Nat.zero_lt_succ 8, nofun⟩

theorem rangesOk_edge_of_quiet {p : Params} {z : Serializer} (h : z.isQuiet p = true) :
    (serializerEdge p none z).RangesOk p := by
  obtain ⟨⟨hempty, -⟩, hle, hlt⟩ := (isQuiet_iff p z).mp h
  by_cases hbits : z.shBits = 0
  · rw [serializerEdge_empty hbits hempty]
    exact ⟨hle, Nat.zero_lt_of_lt hlt, fun _ => rfl⟩
  · exact Serializer.RangesOk.edge ⟨hle, hlt, fun h0 => absurd h0 hbits⟩ none

/-- The levels an ENC command plays from the cycle after its acceptance on, over what a quiet serializer has left. -/
def encLevels (p : Params) (z : Serializer) (i : Instr) : List Bool :=
  List.replicate (max 2 (z.cyclesLeft p - 1)) false ++ wave p (instrSymbols p i)

theorem stepAt_of_send {p : Params} {i : Instr} {s : State} {rest : List HostMove}
    (hready : s.sequencer.busy = false) (hhost : s.host = .send (encode i) :: rest) :
    stepAt p s = .next (acceptEdge p (encode i) s) := by
  obtain ⟨hr, hvalid, hdata⟩ := ports_of_send hhost
  rw [← hdata]
  exact stepAt_of_accepts p ((accepts_iff s).mpr ⟨hr, hvalid, hready⟩)

section
variable (p : Params) (i : Instr) (s : State)

theorem acceptEdge_encode_arch : (acceptEdge p (encode i) s).arch = transactInstr p i s.arch :=
  transact_of_decode (decodeEncodeRoundTrip i)

theorem acceptEdge_encode_sequencer : (acceptEdge p (encode i) s).sequencer = instrStart p i s.sequencer :=
  wordStart_of_decode (decodeEncodeRoundTrip i)

variable {p i s} (henc : isEnc i = true) (hquiet : s.serializer.isQuiet p = true)
include henc hquiet

theorem coherent_acceptEdge : Coherent p (acceptEdge p (encode i) s) := by
  obtain ⟨hb, ho, hp, -⟩ := instrStart_enc p henc s.sequencer
  rw [← acceptEdge_encode_sequencer] at hb ho hp
  refine ⟨?_, rangesOk_edge_of_quiet hquiet, fun _ _ hdrain => ?_, fun hn => absurd ⟨hb, ho⟩ hn⟩
  · rw [acceptEdge_encode_sequencer]
    exact instrStart_symbolsOk p henc _
  · simp [hp] at hdrain

theorem plays_acceptEdge (hready : s.sequencer.busy = false) :
    Plays p (acceptEdge p (encode i) s) (encLevels p s.serializer i) := by
  obtain ⟨hidle, -, hlt⟩ := (isQuiet_iff p _).mp hquiet
  obtain ⟨hb, ho, hp, -⟩ := instrStart_enc p henc s.sequencer
  rw [← acceptEdge_encode_sequencer] at hb ho hp
  have hleft : (acceptEdge p (encode i) s).serializer.cyclesLeft p = s.serializer.cyclesLeft p - 1 :=
    cyclesLeft_edge hlt (loaded_eq_none_iff.mpr (.inr hidle.1)) none
  rw [encLevels, ← hleft, ← symbolsOf_encode, ← inFlight_acceptEdge hready hidle.1]
  exact .starts hb ho hp (hidle.edge p)

end

/-! ### Busy cycles -/

/-- A cycle in which no word is accepted. -/
theorem Plays.step {p : Params} {s : State} {ls : List Bool} (h : Plays p s ls) (hcoh : Coherent p s)
    (hr : s.rst = false) (ha : s.accepts = false) :
    ∃ t, stepAt p s = .next t ∧ Coherent p t ∧ Plays p t ls.tail ∧ t.arch = s.arch ∧
      t.host = hostWaits s.host :=
  ⟨_, stepAt_of_symbolsOk hcoh.symbols hr ha, hcoh.clockEdge, h.clockEdge hcoh rfl, rfl, rfl⟩

/-- Up to and including the edge of completion no word is accepted, whatever the host presents. -/
theorem Plays.cycles_busy {p : Params} {s : State} {ls : List Bool} (h : Plays p s ls) (hcoh : Coherent p s)
    (hfree : resetFree s.host = true) (n : Nat) (hn : n + 8 * p.div ≤ ls.length + 1) :
    ∃ t, cycles (stepAt p) n s = .next t ∧ Coherent p t ∧ Plays p t (ls.drop n) ∧ t.arch = s.arch := by
  induction n generalizing s ls with
  | zero => exact ⟨s, rfl, hcoh, h, rfl⟩
  | succ n ih =>
    have hbusy : s.sequencer.busy = true := (h.busy_iff hcoh).mpr (by omega)
    obtain ⟨u, hstep, hcoh', h', harch, hhost⟩ :=
      h.step hcoh (rst_of_resetFree hfree) (accepts_false_of_busy hbusy)
    obtain ⟨t, hrun, hcoht, ht, harcht⟩ := ih h' hcoh' (hhost ▸ resetFree_hostWaits hfree)
      (by rw [List.length_tail]; omega)
    refine ⟨t, cycles_succ hstep hrun, hcoht, ?_, harcht.trans harch⟩
    rwa [List.drop_tail] at ht

theorem instrSymbols_length_pos (p : Params) {i : Instr} (henc : isEnc i = true) : 0 < (instrSymbols p i).length := by
  cases i with
  | latch | arm => cases henc
  | encodeByte | writeColor => exact Nat.zero_lt_succ _

/-- R109's duration, the delay by an IDLE included, in terms of the levels played. -/
theorem encLevels_length (p : Params) (z : Serializer) {i : Instr} (henc : isEnc i = true) :
    (encLevels p z i).length + 1 = encBusyCycles p (instrSymbols p i).length + idleDelay p z + 8 * p.div := by
  obtain ⟨m, hm⟩ := Nat.exists_eq_add_one.mpr (instrSymbols_length_pos p henc)
  rw [encLevels, List.length_append, List.length_replicate, wave_length, hm, encBusyCycles, idleDelay,
    Nat.add_sub_cancel, Nat.mul_assoc, Nat.succ_mul]
  omega

/-- The states after the acceptance, up to the edge of completion. -/
theorem cycles_of_enc {p : Params} {i : Instr} {s : State} {rest : List HostMove} (henc : isEnc i = true)
    (hready : s.sequencer.busy = false) (hquiet : s.serializer.isQuiet p = true)
    (hhost : s.host = .send (encode i) :: rest) (hfree : resetFree rest = true) (n : Nat)
    (hn : n ≤ encBusyCycles p (instrSymbols p i).length + idleDelay p s.serializer) :
    ∃ t, cycles (stepAt p) (n + 1) s = .next t ∧ Coherent p t ∧
      Plays p t ((encLevels p s.serializer i).drop n) ∧ t.arch = transactInstr p i s.arch := by
  have hlen := encLevels_length p s.serializer henc
  have hfree' : resetFree (acceptEdge p (encode i) s).host = true := by
    show resetFree s.host.tail = true
    rwa [hhost]
  obtain ⟨t, hrun, hcoh, hplays, harch⟩ :=
    (plays_acceptEdge henc hquiet hready).cycles_busy (coherent_acceptEdge henc hquiet) hfree' n (by omega)
  exact ⟨t, cycles_succ (stepAt_of_send hready hhost) hrun, hcoh, hplays, harch.trans (acceptEdge_encode_arch p i s)⟩

/-- Settles O38: the block is busy while a whole symbol or more of the command's levels is to come. -/
theorem encBusyDuration : Obligations.EncBusyDuration := by
  intro p i s rest k _ henc hready hquiet hhost hfree hk hkn
  obtain ⟨n, rfl⟩ := Nat.exists_eq_add_of_le' hk
  obtain ⟨t, hrun, hcoh, hplays, -⟩ := cycles_of_enc henc hready hquiet hhost hfree n (Nat.le_of_succ_le_succ hkn)
  refine ⟨t, hrun, Bool.eq_iff_iff.mpr ?_⟩
  have hlen := encLevels_length p s.serializer henc
  rw [hplays.busy_iff hcoh, List.length_drop, decide_eq_true_iff]
  omega

end Sys2Proof.Machine
end

section
/-! The line during ENC commands (R105, R109, R111, R116): the levels played, where the pin lets them through. -/

namespace Sys2Proof.Machine

/-! ### The line -/

/-- The level of the line when the serializer's output is `level` (R33). -/
def Arch.drives (a : Arch) (level : Bool) : Bool :=
  match a.pinMode with
  | .serial => level
  | .gpio => a.gpioLevel

theorem line_eq_drives (s : State) : s.line = s.arch.drives s.serializer.serOut := rfl

theorem drives_transactInstr (p : Params) {i : Instr} (henc : isEnc i = true) (a : Arch) :
    (transactInstr p i a).drives = a.drives := by
  funext level
  obtain ⟨hlatch, harm⟩ := ne_latch_and_ne_arm_of_enc henc
  simp [Arch.drives, transactInstr_pinMode, transactInstr_gpioLevel, hlatch, harm]

theorem lineTrace_succ {p : Params} {n : Nat} {s t : State} (h : stepAt p s = .next t) :
    lineTrace p (n + 1) s = s.line :: lineTrace p n t :=
  traceOf_succ _ h

/-- The line in the cycles in which no word is accepted. -/
theorem Plays.lineTrace_busy {p : Params} {s : State} {ls : List Bool} (h : Plays p s ls) (hcoh : Coherent p s)
    (hfree : resetFree s.host = true) (n : Nat) (hn : n + 8 * p.div ≤ ls.length + 1) :
    lineTrace p n s = (ls.takeD n false).map s.arch.drives := by
  induction n generalizing s ls with
  | zero => rfl
  | succ n ih =>
    have hbusy : s.sequencer.busy = true := (h.busy_iff hcoh).mpr (by omega)
    obtain ⟨t, hstep, hcoh', h', harch, hhost⟩ :=
      h.step hcoh (rst_of_resetFree hfree) (accepts_false_of_busy hbusy)
    rw [lineTrace_succ hstep, ih h' hcoh' (hhost ▸ resetFree_hostWaits hfree) (by rw [List.length_tail]; omega),
      harch, line_eq_drives, h.serOut_eq hcoh]
    rfl

/-! ### A prompt host -/

/-- A host that presents ENC commands and nothing else, each until it is taken. -/
def encHost (is : List Instr) : List HostMove := promptHost (is.map encode)

theorem hostWaits_encHost (is : List Instr) : hostWaits (encHost is) = encHost is := by
  cases is <;> rfl

/-- A command presented and not accepted finds the block busy. -/
theorem busy_of_encHost {s : State} {i : Instr} {is : List Instr} (hhost : s.host = encHost (i :: is))
    (ha : s.accepts = false) : s.sequencer.busy = true := by
  obtain ⟨hr, hvalid, -⟩ := ports_of_send hhost
  by_contra hn
  rw [Bool.not_eq_true] at hn
  simp [(accepts_iff s).mpr ⟨hr, hvalid, hn⟩] at ha

theorem rst_of_encHost {s : State} {is : List Instr} (hhost : s.host = encHost is) : s.rst = false := by
  cases is with
  | nil => exact (ports_of_quiet_host hhost).1
  | cons i is => exact (ports_of_send hhost).1

theorem Plays.eq_of_ready {p : Params} {s : State} {ls : List Bool} (h : Plays p s ls)
    (hready : s.sequencer.busy = false) : ls = List.replicate (s.serializer.cyclesLeft p) false := by
  cases h with
  | ready => rfl
  | starts hbusy | primed hbusy | streams hbusy => simp [hready] at hbusy

/-- A command accepted while the IDLE of the one before it has three cycles or more to go adds its levels without a
gap: in these cycles its first symbol reaches the buffer. -/
theorem Plays.acceptEdge {p : Params} {s : State} {ls : List Bool} {i : Instr} (h : Plays p s ls) (hcoh : Coherent p s)
    (henc : isEnc i = true) (hready : s.sequencer.busy = false) (hslack : 3 ≤ ls.length) :
    Coherent p (acceptEdge p (encode i) s) ∧
      Plays p (acceptEdge p (encode i) s) (ls.tail ++ wave p (instrSymbols p i)) := by
  have hquiet : s.serializer.isQuiet p = true :=
    (isQuiet_iff p _).mpr ⟨hcoh.onlyIdleLeft hready, hcoh.ranges.shBits_le, hcoh.ranges.divCnt_lt⟩
  have hls := h.eq_of_ready hready
  rw [hls, List.length_replicate] at hslack
  have hnext := plays_acceptEdge henc hquiet hready
  rw [encLevels, Nat.max_eq_right (by omega)] at hnext
  rw [hls, List.tail_replicate]
  exact ⟨coherent_acceptEdge henc hquiet, hnext⟩

theorem headD_tail_append {l l' : List Bool} (h : l' = [] ∨ l ≠ []) :
    (l ++ l').headD false = l.headD false ∧ (l ++ l').tail = l.tail ++ l' := by
  cases l with
  | nil => simp [h.resolve_right (not_not.mpr rfl)]
  | cons x l => exact ⟨rfl, rfl⟩

/-- The line of a prompt host's commands: each is accepted as soon as the one before it has completed, and adds its
levels without a gap (R105, R112, R185). -/
theorem Plays.lineTrace_encHost {p : Params} {s : State} {ls : List Bool} {is : List Instr} (h : Plays p s ls)
    (hcoh : Coherent p s) (henc : ∀ i ∈ is, isEnc i = true) (hhost : s.host = encHost is)
    (hslack : is = [] ∨ 3 ≤ ls.length) (n : Nat) :
    lineTrace p n s = ((ls ++ wave p (is.flatMap (instrSymbols p))).takeD n false).map s.arch.drives := by
  induction n generalizing s ls is with
  | zero => rfl
  | succ n ih =>
    have hsplit : wave p (is.flatMap (instrSymbols p)) = [] ∨ ls ≠ [] := by
      refine hslack.imp (fun hnil => by simp [hnil]) fun h3 hnil => ?_
      simp [hnil] at h3
    rw [List.takeD, (headD_tail_append hsplit).1, (headD_tail_append hsplit).2, List.map_cons, ← h.serOut_eq hcoh,
      ← line_eq_drives]
    have hdiv : 0 < p.div := Nat.zero_lt_of_lt hcoh.ranges.divCnt_lt
    cases ha : s.accepts with
    | false =>
      obtain ⟨t, hstep, hcoh', h', harch, hhost'⟩ := h.step hcoh (rst_of_encHost hhost) ha
      rw [hhost, hostWaits_encHost] at hhost'
      have hslack' : is = [] ∨ 3 ≤ ls.tail.length := by
        cases is with
        | nil => exact .inl rfl
        | cons i is =>
          have hlen := (h.busy_iff hcoh).mp (busy_of_encHost hhost ha)
          rw [List.length_tail]
          exact .inr (by omega)
      rw [lineTrace_succ hstep, ih h' hcoh' henc hhost' hslack', harch]
    | true =>
      cases is with
      | nil => simp [(ports_of_quiet_host hhost).2] at ha
      | cons i is =>
        have hi : isEnc i = true := henc i List.mem_cons_self
        obtain ⟨hcoh', h'⟩ :=
          h.acceptEdge hcoh hi (ready_of_accepts ha) (hslack.resolve_left (List.cons_ne_nil _ _))
        have hhost' : (Machine.acceptEdge p (encode i) s).host = encHost is := by
          show s.host.tail = _
          rw [hhost]
          rfl
        have hslack' : 3 ≤ (ls.tail ++ wave p (instrSymbols p i)).length := by
          have hlen := le_wave_length (p := p) (List.length_pos_iff.mp (instrSymbols_length_pos p hi))
          rw [List.length_append]
          omega
        rw [lineTrace_succ (stepAt_of_send (ready_of_accepts ha) hhost),
          ih h' hcoh' (fun j hj => henc j (List.mem_cons_of_mem i hj)) hhost' (.inr hslack'), acceptEdge_encode_arch,
          drives_transactInstr p hi, List.flatMap_cons, wave_append, List.append_assoc]

/-! ### From the acceptance on -/

/-- The levels of an ENC command from its acceptance cycle on: three low cycles or the rest of an IDLE, then its symbols
(R109, R111). -/
theorem encLevels_cons (p : Params) (z : Serializer) (i : Instr) :
    false :: encLevels p z i = List.replicate (3 + idleDelay p z) false ++ wave p (instrSymbols p i) := by
  have hlow : 3 + idleDelay p z = max 2 (z.cyclesLeft p - 1) + 1 := by
    rw [idleDelay]
    omega
  rw [hlow, List.replicate_succ]
  rfl

theorem line_of_quiet {p : Params} {s : State} (hquiet : s.serializer.isQuiet p = true) :
    s.line = s.arch.drives false := by
  obtain ⟨hidle, -⟩ := (isQuiet_iff p _).mp hquiet
  rw [line_eq_drives, hidle.serOut]

section
variable {p : Params} {i : Instr} {s : State} (henc : isEnc i = true) (hready : s.sequencer.busy = false)
  (hquiet : s.serializer.isQuiet p = true)
include henc hready hquiet

/-- The line of an ENC command and of the prompt ENC commands after it, armed or not. -/
theorem lineTrace_of_encHost {is : List Instr} (his : ∀ j ∈ is, isEnc j = true)
    (hhost : s.host = encHost (i :: is)) (n : Nat) :
    lineTrace p n s = ((List.replicate (3 + idleDelay p s.serializer) false ++
      wave p ((i :: is).flatMap (instrSymbols p))).takeD n false).map s.arch.drives := by
  cases n with
  | zero => rfl
  | succ n =>
    have hhost' : (acceptEdge p (encode i) s).host = encHost is := congrArg List.tail hhost
    have hslack : 3 ≤ (encLevels p s.serializer i).length := by
      have hdiv : s.serializer.divCnt < p.div := ((isQuiet_iff p _).mp hquiet).2.2
      have hlen := encLevels_length p s.serializer henc
      rw [encBusyCycles] at hlen
      omega
    rw [List.flatMap_cons, wave_append, ← List.append_assoc, ← encLevels_cons,
      lineTrace_succ (stepAt_of_send hready hhost), line_of_quiet hquiet,
      (plays_acceptEdge henc hquiet hready).lineTrace_encHost (coherent_acceptEdge henc hquiet) his hhost'
        (.inr hslack),
      acceptEdge_encode_arch, drives_transactInstr p henc]
    rfl

/-- The line of an ENC command up to its completion, whatever the host presents meanwhile. -/
theorem lineTrace_of_enc {rest : List HostMove} (hhost : s.host = .send (encode i) :: rest)
    (hfree : resetFree rest = true) {n : Nat}
    (hn : n ≤ encBusyCycles p (instrSymbols p i).length + idleDelay p s.serializer + 1) :
    lineTrace p n s = ((List.replicate (3 + idleDelay p s.serializer) false ++
      wave p (instrSymbols p i)).takeD n false).map s.arch.drives := by
  cases n with
  | zero => rfl
  | succ n =>
    have hfree' : resetFree (acceptEdge p (encode i) s).host = true := by
      have hhost' : (acceptEdge p (encode i) s).host = rest := congrArg List.tail hhost
      rwa [hhost']
    have hlen := encLevels_length p s.serializer henc
    rw [← encLevels_cons, lineTrace_succ (stepAt_of_send hready hhost), line_of_quiet hquiet,
      (plays_acceptEdge henc hquiet hready).lineTrace_busy (coherent_acceptEdge henc hquiet) hfree' n (by omega),
      acceptEdge_encode_arch, drives_transactInstr p henc]
    rfl

end

theorem takeD_eq_take_append {α : Type} (n : Nat) (l : List α) (d : α) :
    l.takeD n d = (l ++ List.replicate n d).take n := by
  rw [List.take_append, List.take_replicate, Nat.min_eq_left (Nat.sub_le ..)]
  induction n generalizing l with
  | zero => simp
  | succ n ih =>
    cases l with
    | nil => simp [List.replicate_succ]
    | cons x l => simp [ih]

/-- Settles O39: armed, the line is the serializer's output; a host that presents nothing more is a prompt one without
further commands. -/
theorem encWaveform : Obligations.EncWaveform := by
  intro p i s rest n _ henc hready hquiet hpin hhost hfree hn
  have hdrives : s.arch.drives = id := by
    funext level
    simp [Arch.drives, hpin]
  rw [← takeD_eq_take_append]
  rcases hn with rfl | hn
  · rw [lineTrace_of_encHost henc hready hquiet (is := []) nofun hhost, hdrives, List.map_id, List.flatMap_singleton]
  · rw [lineTrace_of_enc henc hready hquiet hhost hfree hn, hdrives, List.map_id]

/-- Settles O41: both hosts are prompt ones, and their commands have the same symbols, so that the same levels are
played; the pin, which lets them through or not, is the same. -/
theorem colourWaveEqualsThreeByteWaves : Obligations.ColourWaveEqualsThreeByteWaves := by
  intro p r g b s n _ hready hquiet
  have hcolour := lineTrace_of_encHost (p := p) (s := { s with host := encHost [.writeColor r g b] })
    (i := .writeColor r g b) rfl hready hquiet (is := []) nofun rfl n
  have hbytes := lineTrace_of_encHost (p := p)
    (s := { s with host := encHost [.encodeByte g, .encodeByte r, .encodeByte b] })
    (i := .encodeByte g) rfl hready hquiet (is := [.encodeByte r, .encodeByte b]) (by simp [isEnc]) rfl n
  have hseq : [Instr.writeColor r g b].flatMap (instrSymbols p) =
      [Instr.encodeByte g, .encodeByte r, .encodeByte b].flatMap (instrSymbols p) := by
    simp [instrSymbols, pixelSeq]
  rw [hseq] at hcolour
  exact hcolour.trans hbytes.symm

end Sys2Proof.Machine
end

section
/-! An unarmed ENC command (R116, R163): the timing of an armed one, and a line that the serializer does not reach. -/

namespace Sys2Proof.Machine

/-! ### The timing -/

/-- Nothing but the transaction-level state follows the transaction-level state. -/
theorem stepAt_withArch {p : Params} {s t : State} (a : Arch) (h : stepAt p s = .next t) :
    ∃ a', stepAt p { s with arch := a } = .next { t with arch := a' } := by
  rcases stepAt_next_cases h with ⟨hr, rfl⟩ | ⟨ha, rfl⟩ | ⟨hr, ha, rfl, hw⟩
  · exact ⟨State.reset.arch, stepAt_of_rst p (s := { s with arch := a }) hr⟩
  · exact ⟨transact p a s.cmdData, stepAt_of_accepts p (s := { s with arch := a }) ha⟩
  · exact ⟨a, stepAt_of_waits (s := { s with arch := a }) hr ha hw⟩

/-- The sequencer and the serializer, cycle by cycle. -/
def timingTrace (p : Params) (n : Nat) (s : State) : List (Sequencer × Serializer) :=
  traceOf (fun u => [(u.sequencer, u.serializer)]) (stepAt p) n s

theorem timingTrace_succ {p : Params} {n : Nat} {s t : State} (h : stepAt p s = .next t) :
    timingTrace p (n + 1) s = (s.sequencer, s.serializer) :: timingTrace p n t :=
  traceOf_succ _ h

theorem timingTrace_withArch (p : Params) {s : State} (hsym : s.sequencer.SymbolsOk) (a : Arch) (n : Nat) :
    timingTrace p n s = timingTrace p n { s with arch := a } := by
  induction n generalizing s a with
  | zero => rfl
  | succ n ih =>
    obtain ⟨t, ht⟩ := exists_stepAt_of_symbolsOk hsym p
    obtain ⟨a', ht'⟩ := stepAt_withArch a ht
    rw [timingTrace_succ ht, timingTrace_succ ht', ih (symbolsOk_stepAt hsym ht) a']

/-! ### The transaction-level state and the line -/

/-- With nothing presented the transaction-level state stays as it is. -/
theorem cycles_of_quiet_host {p : Params} {s : State} (hsym : s.sequencer.SymbolsOk) (hhost : s.host = []) (n : Nat) :
    ∃ t, cycles (stepAt p) n s = .next t ∧ t.arch = s.arch := by
  induction n generalizing s with
  | zero => exact ⟨s, rfl, rfl⟩
  | succ n ih =>
    obtain ⟨hr, ha⟩ := ports_of_quiet_host hhost
    have hstep := stepAt_of_symbolsOk (p := p) hsym hr ha
    obtain ⟨t, hrun, harch⟩ := ih (symbolsOk_stepAt hsym hstep) (by rw [clockEdge_host, hhost]; rfl)
    exact ⟨t, cycles_succ hstep hrun, harch⟩

theorem lineTrace_low {p : Params} (n : Nat) {s : State}
    (h : ∀ k, k ≤ n → ∃ t, cycles (stepAt p) k s = .next t ∧ t.line = false) :
    lineTrace p n s = List.replicate n false := by
  induction n generalizing s with
  | zero => rfl
  | succ n ih =>
    obtain ⟨_, ⟨⟩, hline⟩ := h 0 (Nat.zero_le _)
    obtain ⟨t, ht, -⟩ := h 1 (by omega)
    obtain ⟨u, hstep, ⟨⟩⟩ := cycles_succ_cases ht
    rw [lineTrace_succ hstep, hline, ih fun k hk => ?_]
    · rfl
    · obtain ⟨v, hrun, hlow⟩ := h (k + 1) (by omega)
      obtain ⟨u', hstep', hrun'⟩ := cycles_succ_cases hrun
      rw [hstep] at hstep'
      cases hstep'
      exact ⟨v, hrun', hlow⟩

theorem transactInstr_unarmed (p : Params) {i : Instr} (henc : isEnc i = true) {a : Arch} (hpin : a.pinMode = .gpio) :
    transactInstr p i a = { a with
      errUnarmed := true
      obs := a.obs ++ [.fault .unarmedWrite] ++ (instrSymbols p i).map .shadow } := by
  cases i with
  | latch | arm => cases henc
  | encodeByte | writeColor => exact Arch.recordSymbols_gpio a _ hpin

/-- Settles O42: the sequencer and the serializer go on the same way whatever the transaction-level state, and nothing
accepted later changes what the acceptance made of it, in GPIO mode with the level low. -/
theorem unarmedEncRunsSilently : Obligations.UnarmedEncRunsSilently := by
  intro p i s rest n henc hready hpin hlow hhost
  have hsym : (acceptEdge p (encode i) s).sequencer.SymbolsOk := by
    rw [acceptEdge_encode_sequencer]
    exact instrStart_symbolsOk p henc _
  refine ⟨?_, fun halone => ?_⟩
  · show timingTrace p n s = timingTrace p n (s.withPin .serial)
    cases n with
    | zero => rfl
    | succ n =>
      rw [timingTrace_succ (stepAt_of_send hready hhost),
        timingTrace_succ (stepAt_of_send (s := s.withPin .serial) hready hhost),
        timingTrace_withArch p hsym (transact p (s.withPin .serial).arch (encode i))]
      rfl
  · have hruns : ∀ k, k + 1 ≤ n →
        ∃ t, cycles (stepAt p) (k + 1) s = .next t ∧ t.arch = transactInstr p i s.arch := by
      intro k hk
      rcases halone with rfl | ⟨hfree, hquiet, hn⟩
      · obtain ⟨t, hrun, harch⟩ := cycles_of_quiet_host (p := p) hsym (congrArg List.tail hhost) k
        exact ⟨t, cycles_succ (stepAt_of_send hready hhost) hrun, harch.trans (acceptEdge_encode_arch p i s)⟩
      · obtain ⟨t, hrun, -, -, harch⟩ := cycles_of_enc henc hready hquiet hhost hfree k (by omega)
        exact ⟨t, hrun, harch⟩
    have harch := transactInstr_unarmed p henc hpin
    refine ⟨lineTrace_low n fun k hk => ?_, fun hn => ?_⟩
    · cases k with
      | zero => exact ⟨s, rfl, (line_of_gpio hpin).trans hlow⟩
      | succ k =>
        obtain ⟨t, hrun, ht⟩ := hruns k hk
        rw [harch] at ht
        exact ⟨t, hrun, (line_of_gpio (by rw [ht]; exact hpin)).trans (by rw [ht]; exact hlow)⟩
    · obtain ⟨k, rfl⟩ := Nat.exists_eq_add_of_le' hn
      rw [← harch]
      exact hruns k (Nat.le_refl _)

end Sys2Proof.Machine
end

section
/-! The latch controller (R140 to R149): LATCH and ARM at their acceptance, the pin's switch, the hold cycle by cycle,
and the earliest next frame. -/

namespace Sys2Proof.Machine

/-! ### The acceptance -/

/-- Settles O15: a ready block takes LATCH's transaction and starts the hold of the reference configuration. -/
theorem latchAccepted : Obligations.LatchAccepted := by
  intro s hready
  rw [exec_eq_execAt, execAt_eq_of_ready _ _ hready]
  rfl

/-- Settles O16: a ready block takes ARM's transaction alone, which writes the pin mode it may already have. -/
theorem armAccepted : Obligations.ArmAccepted := by
  intro s hready
  have harm : exec .arm s =
      .next { s with arch := { s.arch with pinMode := .serial, obs := s.arch.obs ++ [.armed] } } := by
    rw [exec_eq_execAt, execAt_eq_of_ready _ _ hready]
    rfl
  exact ⟨harm, fun hpin => harm.trans (by simp [hpin])⟩

/-- After a LATCH the pin is a plain output at level 0 (R140, R142). -/
theorem line_of_latched {p : Params} {a : Arch} {s : State} (h : s.arch = a.latch p) : s.line = false := by
  have hpin : s.arch.pinMode = .gpio := by rw [h, Arch.latch_pinMode]
  rw [line_of_gpio hpin, h, Arch.latch_gpioLevel]

theorem accepts_of_acceptedInstr {s : State} {i : Instr} (h : s.acceptedInstr = some i) : s.accepts = true := by
  obtain ⟨w, hw, -⟩ := Option.bind_eq_some_iff.mp h
  exact ((acceptedWord_eq_some_iff s w).mp hw).1

/-- Settles O25: a cycle that accepts a LATCH makes its transaction, and in a run from reset the level is never 1
(O24). -/
theorem pinSwitchHasNoGlitch : Obligations.PinSwitchHasNoGlitch := by
  obtain ⟨-, -, -, -, hlow⟩ := gpioLevelNeverHigh
  refine ⟨fun p s t hlatch hstep => ?_, fun p hs n t hrun hpin => (line_of_gpio hpin).trans (hlow p hs n t hrun)⟩
  have hr : s.rst = false := rst_of_accepts (accepts_of_acceptedInstr hlatch)
  rcases stepAt_arch_cases hstep hr with ⟨i, hi, -, harch⟩ | ⟨hi, -⟩ | ⟨hi, -⟩
  · obtain rfl : i = .latch := Option.some.inj (hi.symm.trans hlatch)
    have hlatched : t.arch = s.arch.latch p := harch
    exact ⟨by rw [hlatched, Arch.latch_pinMode], by rw [hlatched, Arch.latch_gpioLevel], line_of_latched hlatched⟩
  · simp [hi] at hlatch
  · simp [hi] at hlatch

/-! ### The hold -/

/-- A LATCH's hold goes on for `n` cycles, the present one among them, and is over if `n` is 0 (R28, R141). -/
structure Sequencer.HoldsFor (n : Nat) (q : Sequencer) : Prop where
  busy : q.busy = decide (0 < n)
  op : q.op = .latch
  latchCnt : q.latchCnt = n

theorem holdsFor_startHold {n : Nat} (hn : 1 ≤ n) (q : Sequencer) : (q.startHold n).HoldsFor n :=
  ⟨(decide_eq_true hn).symm, rfl, rfl⟩

theorem Sequencer.HoldsFor.edge {n : Nat} {q : Sequencer} (h : q.HoldsFor (n + 1)) (r : Bool) :
    (sequencerEdge r q).HoldsFor n := by
  obtain ⟨hbusy, hop, hcnt⟩ := h
  rw [sequencerEdge_hold (by simpa using hbusy) hop, hcnt]
  cases n with
  | zero => exact ⟨rfl, hop, rfl⟩
  | succ n => exact ⟨by simpa using hbusy, hop, rfl⟩

section
variable {p : Params} {ser : Option Byte → Serializer → Serializer}

/-- The acceptance of a presented command, for any serializer. -/
theorem stepVia_of_send {i : Instr} {s : State} {rest : List HostMove} (hready : s.sequencer.busy = false)
    (hhost : s.host = .send (encode i) :: rest) :
    stepVia p ser (execAt p) s = .next {
      arch := transactInstr p i s.arch
      sequencer := instrStart p i s.sequencer
      serializer := ser none s.serializer
      host := rest } := by
  obtain ⟨hr, hvalid, hdata⟩ := ports_of_send hhost
  have ha : s.accepts = true := (accepts_iff s).mpr ⟨hr, hvalid, hready⟩
  simp [stepVia, hr, ha, hdata, hhost, takeWord, decodeEncodeRoundTrip i, execAt_eq_of_ready p i hready, finishAccept]

/-- A cycle of the hold hands nothing to the serializer and does not look at it. -/
theorem stepVia_of_hold {n : Nat} {s : State} (h : s.sequencer.HoldsFor (n + 1)) (hr : s.rst = false) :
    stepVia p ser (execAt p) s = .next (clockEdge ser none s) := by
  have hbusy : s.sequencer.busy = true := by simpa using h.busy
  have hno : handsOver s.txReady s.sequencer = false := by simp [handsOver, h.op]
  simp [stepVia, advance, hr, accepts_false_of_busy hbusy, txWrite_eq_none hno, hno]

/-- The hold cycle by cycle: the timer counts down, nothing is accepted, and the serializer shifts on alone. -/
theorem cycles_of_hold {n : Nat} (k : Nat) {s : State} (h : s.sequencer.HoldsFor (n + k))
    (hfree : resetFree s.host = true) :
    ∃ u, cycles (stepVia p ser (execAt p)) k s = .next u ∧ u.sequencer.HoldsFor n ∧ u.arch = s.arch ∧
      u.serializer = (ser none)^[k] s.serializer ∧ u.host = hostWaits^[k] s.host := by
  induction k generalizing s with
  | zero => exact ⟨s, rfl, h, rfl, rfl, rfl⟩
  | succ k ih =>
    obtain ⟨u, hrun, hu⟩ := ih (s := clockEdge ser none s) (h.edge s.txReady) (resetFree_hostWaits hfree)
    exact ⟨u, cycles_succ (stepVia_of_hold h (rst_of_resetFree hfree)) hrun, hu⟩

/-- The states after the acceptance of a LATCH, up to the end of the hold. -/
theorem cycles_of_latch {s : State} {rest : List HostMove} (hhold : 1 ≤ p.latchHoldCycles)
    (hready : s.sequencer.busy = false) (hhost : s.host = .send (encode .latch) :: rest)
    (hfree : resetFree rest = true) {k n : Nat} (hkn : n + k = p.latchHoldCycles) :
    ∃ u, cycles (stepVia p ser (execAt p)) (k + 1) s = .next u ∧ u.sequencer.HoldsFor n ∧
      u.arch = s.arch.latch p ∧ u.serializer = (ser none)^[k + 1] s.serializer ∧ u.host = hostWaits^[k] rest := by
  have hstart : (s.sequencer.startHold p.latchHoldCycles).HoldsFor (n + k) := hkn ▸ holdsFor_startHold hhold _
  obtain ⟨u, hrun, hu⟩ := cycles_of_hold (p := p) (ser := ser) k (s := {
    arch := s.arch.latch p
    sequencer := s.sequencer.startHold p.latchHoldCycles
    serializer := ser none s.serializer
    host := rest }) hstart hfree
  exact ⟨u, cycles_succ (stepVia_of_send hready hhost) hrun, hu⟩

end

/-- Settles O43: the timer is loaded at the acceptance and counts down in every cycle, and the block is busy until it is
0. -/
theorem latchHoldsExactly : Obligations.LatchHoldsExactly := by
  intro p ser s rest k hhold hready hhost hfree hk hkn
  obtain ⟨j, rfl⟩ := Nat.exists_eq_add_of_le' hk
  obtain ⟨n, hn⟩ := Nat.exists_eq_add_of_le' (Nat.le_of_succ_le_succ hkn)
  obtain ⟨u, hrun, ⟨hbusy, -, hcnt⟩, harch, -⟩ :=
    cycles_of_latch (p := p) (ser := ser) hhold hready hhost hfree hn.symm
  refine ⟨u, hrun, ?_, ?_, line_of_latched harch, harch⟩
  · rw [hbusy, hn]
    exact decide_eq_decide.mpr (by omega)
  · omega

/-! ### The next frame -/

/-- The line after a LATCH is low for the cycles of the hold. -/
theorem lineTrace_of_latch {p : Params} {s : State} {rest : List HostMove} (hhold : 1 ≤ p.latchHoldCycles)
    (hready : s.sequencer.busy = false) (hhost : s.host = .send (encode .latch) :: rest)
    (hfree : resetFree rest = true) :
    lineTrace p (p.latchHoldCycles + 1) s = s.line :: List.replicate p.latchHoldCycles false := by
  rw [lineTrace_succ (stepAt_of_send hready hhost), lineTrace_low]
  intro k hk
  obtain ⟨n, hn⟩ := Nat.exists_eq_add_of_le' hk
  obtain ⟨u, hrun, -, harch, -⟩ :=
    cycles_of_latch (ser := serializerEdge p) hhold hready hhost hfree hn.symm
  obtain ⟨t, hstep, hrest⟩ := cycles_succ_cases hrun
  cases (stepAt_of_send hready hhost).symm.trans hstep
  exact ⟨u, hrest, line_of_latched harch⟩

/-- The line of a run is that of its first cycles, then that of the cycles after them. -/
theorem lineTrace_add {p : Params} {m : Nat} (n : Nat) {s t : State} (h : cycles (stepAt p) m s = .next t) :
    lineTrace p (m + n) s = lineTrace p m s ++ lineTrace p n t := by
  induction m generalizing s with
  | zero =>
    cases h
    rw [Nat.zero_add]
    rfl
  | succ m ih =>
    obtain ⟨u, hstep, hrest⟩ := cycles_succ_cases h
    rw [Nat.succ_add, lineTrace_succ hstep, lineTrace_succ hstep, ih hrest, List.cons_append]

/-- The first level of a sequence is bit 7 of its first symbol (R53). -/
theorem exists_wave_eq_cons {p : Params} (hdiv : 1 ≤ p.div) {seq : List Byte} {v : Byte} (h : seq[0]? = some v) :
    ∃ levels, wave p seq = v.getLsbD 7 :: levels := by
  obtain ⟨d, hd⟩ := Nat.exists_eq_add_of_le' hdiv
  cases seq with
  | nil => cases h
  | cons x l =>
    obtain rfl : x = v := Option.some.inj h
    simp [wave, symbolWave, hd, List.replicate_succ]

/-- The first bit of an armed ENC command that finds the serializer empty follows three low cycles (R109, R111). -/
theorem lineTrace_first_bit {p : Params} {i : Instr} {s : State} {v : Byte} (hdiv : 1 ≤ p.div) (henc : isEnc i = true)
    (hready : s.sequencer.busy = false) (hempty : s.serializer.isEmpty = true) (hcnt : s.serializer.divCnt = 0)
    (hpin : s.arch.pinMode = .serial) (hhost : s.host = [.send (encode i)])
    (hv : (instrSymbols p i)[0]? = some v) :
    lineTrace p 4 s = List.replicate 3 false ++ [v.getLsbD 7] := by
  obtain ⟨hquiet, hdelay⟩ := isQuiet_of_isEmpty (p := p) (by omega) hempty
  obtain ⟨levels, hlevels⟩ := exists_wave_eq_cons hdiv hv
  rw [encWaveform p i s [] 4 hdiv henc hready hquiet hpin hhost rfl (.inl rfl), hdelay, hlevels]
  rfl

/-- An empty serializer's edge with nothing written (R108). -/
theorem edge_of_isEmpty (p : Params) {z : Serializer} (h : z.isEmpty = true) :
    serializerEdge p none z = { z with divCnt := 0 } := by
  obtain ⟨hbuf, hbits⟩ : z.txbufFull = false ∧ z.shBits = 0 := by simpa [Serializer.isEmpty] using h
  exact serializerEdge_empty hbits hbuf

theorem isEmpty_edge (p : Params) {z : Serializer} (h : z.isEmpty = true) :
    (serializerEdge p none z).isEmpty = true := by
  rw [edge_of_isEmpty p h]
  exact h

/-- ARM and an ENC command at the earliest edges, the serializer being empty: the first bit is on the line four cycles
after ARM's acceptance cycle (R148, R109). -/
theorem lineTrace_of_arm {p : Params} {i : Instr} {s : State} {v : Byte} (hdiv : 1 ≤ p.div) (henc : isEnc i = true)
    (hready : s.sequencer.busy = false) (hempty : s.serializer.isEmpty = true)
    (hhost : s.host = promptHost [encode .arm, encode i]) (hv : (instrSymbols p i)[0]? = some v) :
    lineTrace p 5 s = s.line :: (List.replicate 3 false ++ [v.getLsbD 7]) := by
  have hser : (acceptEdge p (encode .arm) s).serializer = { s.serializer with divCnt := 0 } := edge_of_isEmpty p hempty
  have hready' : (acceptEdge p (encode .arm) s).sequencer.busy = false := by
    rw [acceptEdge_encode_sequencer]
    exact hready
  have hpin : (acceptEdge p (encode .arm) s).arch.pinMode = .serial := by
    rw [acceptEdge_encode_arch]
    rfl
  rw [lineTrace_succ (stepAt_of_send hready hhost),
    lineTrace_first_bit hdiv henc hready' (by rw [hser]; exact hempty) (by rw [hser]) hpin (congrArg List.tail hhost) hv]

/-- Settles O44: the hold's cycles, the cycle that accepts ARM and the three before the first bit are low, and the
serializer, with nothing written to it, is still empty at the end of the hold. -/
theorem earliestBitAfterLatch : Obligations.EarliestBitAfterLatch := by
  intro p i s hdiv hhold henc hready hempty hhost
  have hv := List.getElem?_eq_getElem (instrSymbols_length_pos p henc)
  refine ⟨_, hv, ?_⟩
  obtain ⟨t, hrun, hdone, hlatched, hser, hwaits⟩ := cycles_of_latch (ser := serializerEdge p) hhold hready hhost rfl
    (Nat.zero_add _)
  have hhost' : t.host = promptHost [encode .arm, encode i] := hwaits.trans (Function.iterate_fixed rfl _)
  have hempty' : t.serializer.isEmpty = true := by
    rw [hser]
    exact Function.Iterate.rec (fun z : Serializer => z.isEmpty = true) hempty (fun _ => isEmpty_edge p) _
  rw [lineTrace_add (m := p.latchHoldCycles + 1) 5 hrun, lineTrace_of_latch hhold hready hhost rfl,
    lineTrace_of_arm hdiv henc hdone.busy hempty' hhost' hv, line_of_latched hlatched]
  show List.replicate _ false ++ (List.replicate 4 false ++ _) = _
  rw [← List.append_assoc, List.replicate_append_replicate]

end Sys2Proof.Machine
end

section
/-! The exceptions (R162, R166, R167): an illegal word sets its flag and nothing else, a command records at most one
error, and no error stops the block. -/

namespace Sys2Proof.Machine

/-! ### The block goes on -/

/-- A run stops nowhere: every state it reaches has a symbol for every hand-over. -/
theorem exists_cycles_of_symbolsOk {s : State} (h : s.sequencer.SymbolsOk) (p : Params) (n : Nat) :
    ∃ t, cycles (stepAt p) n s = .next t := by
  induction n generalizing s with
  | zero => exact ⟨s, rfl⟩
  | succ n ih =>
    obtain ⟨t, hstep⟩ := exists_stepAt_of_symbolsOk h p
    obtain ⟨u, hrun⟩ := ih (symbolsOk_stepAt h hstep)
    exact ⟨u, cycles_succ hstep hrun⟩

/-- Settles O50: the one stop of a cycle is a symbol without a holding register, which the invariant's part about
symbols excludes; that part holds at reset and is kept by every step. -/
theorem blockNeverStops : Obligations.BlockNeverStops := by
  refine ⟨fun p s hinv => exists_stepAt_of_symbolsOk hinv.symbolsOk p, fun s hinv => ?_,
    fun p hs n _ => exists_cycles_of_symbolsOk (s := startWith hs) reset_symbolsOk p n⟩
  rw [step_eq_stepAt]
  exact exists_stepAt_of_symbolsOk hinv.symbolsOk Config.params

/-! ### The recorded errors -/

@[simp] theorem faultsIn_append (l l' : List Event) : faultsIn (l ++ l') = faultsIn l ++ faultsIn l' :=
  List.filterMap_append

@[simp] theorem faultsIn_map_sym (seq : List Byte) : faultsIn (seq.map .sym) = [] := by
  simp [faultsIn]

@[simp] theorem faultsIn_map_shadow (seq : List Byte) : faultsIn (seq.map .shadow) = [] := by
  simp [faultsIn]

@[simp] theorem faultsIn_nil : faultsIn [] = [] := rfl

@[simp] theorem faultsIn_hold_cons (n : Nat) (l : List Event) : faultsIn (.hold n :: l) = faultsIn l := rfl

@[simp] theorem faultsIn_armed_cons (l : List Event) : faultsIn (.armed :: l) = faultsIn l := rfl

@[simp] theorem faultsIn_fault_cons (k : ErrorKind) (l : List Event) : faultsIn (.fault k :: l) = k :: faultsIn l := rfl

theorem faultsIn_recordSymbols (seq : List Byte) (a : Arch) :
    faultsIn (a.recordSymbols seq).obs = faultsIn a.obs ++ if a.pinMode = .gpio then [.unarmedWrite] else [] := by
  cases h : a.pinMode with
  | serial => simp [Arch.recordSymbols_serial a seq h]
  | gpio => simp [Arch.recordSymbols_gpio a seq h]

/-- The one error a legal command can record is that of an unarmed ENC command (R163). -/
theorem faultsIn_transactInstr (p : Params) (i : Instr) (a : Arch) :
    faultsIn (transactInstr p i a).obs =
      faultsIn a.obs ++ if isEnc i = true ∧ a.pinMode = .gpio then [.unarmedWrite] else [] := by
  cases i with
  | writeColor r g b => simp [transactInstr, faultsIn_recordSymbols, isEnc]
  | encodeByte b => simp [transactInstr, faultsIn_recordSymbols, isEnc]
  | latch => simp [transactInstr, isEnc]
  | arm => simp [transactInstr, isEnc]

theorem faultsIn_illegal (a : Arch) : faultsIn a.illegal.obs = faultsIn a.obs ++ [.illegalCommand] := by simp

theorem acceptedWord_of_rst {s : State} (h : s.rst = true) : s.acceptedWord = none := by
  simp [State.acceptedWord, State.accepts, h]

/-- Settles O27: a cycle accepts a command, which records UnarmedWrite or nothing, an illegal word, which records
IllegalCommand, or no word, which records nothing. -/
theorem atMostOneErrorPerCommand : Obligations.AtMostOneErrorPerCommand := by
  refine ⟨fun p s t hr hstep => ⟨fun hw => ?_, ?_, fun hill => ?_⟩, fun s => acceptedWord_of_rst⟩
  · rw [stepAt_arch hstep hr, hw]
  · rcases stepAt_arch_cases hstep hr with ⟨i, -, -, harch⟩ | ⟨-, -, harch⟩ | ⟨-, -, harch⟩
    · rw [harch, faultsIn_transactInstr]
      split
      · exact .inr ⟨.unarmedWrite, rfl⟩
      · exact .inl (List.append_nil _)
    · exact .inr ⟨.illegalCommand, by rw [harch, faultsIn_illegal]⟩
    · exact .inl (by rw [harch])
  · rcases stepAt_arch_cases hstep hr with ⟨i, -, hlegal, -⟩ | ⟨-, -, harch⟩ | ⟨-, hlegal, -⟩
    · simp [hill] at hlegal
    · rw [harch]
      exact ⟨faultsIn_illegal s.arch, Arch.illegal_errUnarmed s.arch⟩
    · simp [hill] at hlegal

/-! ### An illegal word -/

theorem acceptsIllegal_iff (s : State) : s.acceptsIllegal = true ↔ s.accepts = true ∧ decode s.cmdData = none := by
  simp [State.acceptsIllegal]

theorem wordStart_of_illegal {p : Params} {q : Sequencer} {w : Word} (h : decode w = none) : wordStart p w q = q := by
  simp [wordStart, h]

theorem stepAt_of_acceptsIllegal (p : Params) {s : State} (h : s.acceptsIllegal = true) :
    stepAt p s = .next
      { arch := s.arch.illegal
        sequencer := s.sequencer
        serializer := serializerEdge p none s.serializer
        host := s.host.tail } := by
  obtain ⟨ha, hd⟩ := (acceptsIllegal_iff s).mp h
  rw [stepAt_of_accepts p ha, acceptEdge, transact_of_illegal hd, wordStart_of_illegal hd]

/-- Settles O20: an illegal word's transaction is its error, and it starts nothing; after a reset the flag is all that
STATUS shows beside TX_READY. -/
theorem illegalWordEffect : Obligations.IllegalWordEffect := by
  refine ⟨fun p s hill => stepAt_of_acceptsIllegal p hill,
    fun p => ⟨_, stepAt_of_acceptsIllegal p (s := startWith [.send 0]) (by decide), ?_⟩⟩
  rw [serializerEdge_empty rfl rfl]
  rfl

end Sys2Proof.Machine
end

section
/-! The block reset and the end of a run (R180, R181, R192): a reset gives the reset state whatever the block held, and
a block at rest whose host has no more commands stays at rest. -/

namespace Sys2Proof.Machine

/-! ### The reset -/

theorem holdsResetValues_startWith (hs : List HostMove) : HoldsResetValues (startWith hs) := resetStateValues.1

/-- Settles O10: the next state is the reset state, for the host's later moves. -/
theorem blockResetFromAnyState : Obligations.BlockResetFromAnyState :=
  fun p _ hr => ⟨acceptedWord_of_rst hr, _, stepAt_of_rst p hr, holdsResetValues_startWith _⟩

/-! ### A block at rest -/

theorem acceptedWord_of_noMoreCommands {s : State} (h : noMoreCommands s.host = true) : s.acceptedWord = none := by
  simp [State.acceptedWord, accepts_false_of_noMoreCommands h]

/-- With nothing to do and no reset, a cycle uses up the host's move and changes nothing in the block. -/
theorem stepAt_of_runOver (p : Params) {s : State} (hover : s.runOver = true) (hcnt : s.serializer.divCnt = 0)
    (hr : s.rst = false) : stepAt p s = .next { s with host := hostWaits s.host } := by
  obtain ⟨hhost, hready, hempty, hbits⟩ := (runOver_iff s).mp hover
  have hno : handsOver s.txReady s.sequencer = false := by simp [handsOver, hready]
  have hser : serializerEdge p none s.serializer = s.serializer := by
    rw [serializerEdge_empty hbits hempty, ← hcnt]
  rw [stepAt_of_waits hr (accepts_false_of_noMoreCommands hhost) (by simp [hno]), txWrite_eq_none hno, clockEdge,
    sequencerEdge_idle hready, hser]

theorem runOver_withHost {s : State} (h : s.runOver = true) {hs : List HostMove} (hhs : noMoreCommands hs = true) :
    { s with host := hs }.runOver = true := by
  obtain ⟨-, hready, hempty, hbits⟩ := (runOver_iff s).mp h
  exact (runOver_iff _).mpr ⟨hhs, hready, hempty, hbits⟩

theorem runOver_startWith {hs : List HostMove} (h : noMoreCommands hs = true) : (startWith hs).runOver = true :=
  (runOver_iff _).mpr ⟨h, rfl, rfl, rfl⟩

/-- Settles O55: at the end of a run the host has a reset or a pause to give, and no command. -/
theorem endOfRunIsFinal : Obligations.EndOfRunIsFinal := by
  intro p s hinv hover
  obtain ⟨hhost, -, -, hbits⟩ := (runOver_iff s).mp hover
  refine ⟨acceptedWord_of_noMoreCommands hhost, ?_⟩
  cases hr : s.rst with
  | true =>
    exact ⟨_, stepAt_of_rst p hr, runOver_startWith (noMoreCommands_tail hhost), nofun,
      fun _ => holdsResetValues_startWith _⟩
  | false =>
    exact ⟨_, stepAt_of_runOver p hover (hinv.divCnt_zero hbits) hr,
      runOver_withHost hover (noMoreCommands_hostWaits hhost), fun _ => rfl, nofun⟩

/-! ### After a reset -/

/-- With no command to come the block stays as the reset left it. -/
theorem stepAt_startWith (p : Params) {hs : List HostMove} (h : noMoreCommands hs = true) :
    ∃ hs', noMoreCommands hs' = true ∧ stepAt p (startWith hs) = .next (startWith hs') := by
  cases hr : (startWith hs).rst with
  | true => exact ⟨_, noMoreCommands_tail h, stepAt_of_rst p hr⟩
  | false => exact ⟨_, noMoreCommands_hostWaits h, stepAt_of_runOver p (runOver_startWith h) rfl hr⟩

theorem cycles_startWith (p : Params) (n : Nat) {hs : List HostMove} (h : noMoreCommands hs = true) :
    ∃ hs', cycles (stepAt p) n (startWith hs) = .next (startWith hs') := by
  induction n generalizing hs with
  | zero => exact ⟨hs, rfl⟩
  | succ n ih =>
    obtain ⟨hs₁, h₁, hstep⟩ := stepAt_startWith p h
    obtain ⟨hs', hrun⟩ := ih h₁
    exact ⟨hs', cycles_succ hstep hrun⟩

/-- Settles O11: after the reset every cycle keeps the reset state, whose line, STATUS and observation are those of
R38. -/
theorem blockResetAbandonsCommand : Obligations.BlockResetAbandonsCommand := by
  refine ⟨fun p s n hr hhost => ?_, fun p s hr => ⟨_, stepAt_of_rst p hr, rfl⟩⟩
  obtain ⟨hs, hrun⟩ := cycles_startWith p n (noMoreCommands_tail hhost)
  obtain ⟨-, -, -, -, -, -, -, -, -, -, hstatus, hline⟩ := holdsResetValues_startWith hs
  exact ⟨_, cycles_succ (stepAt_of_rst p hr) hrun, hline, hstatus, rfl⟩

end Sys2Proof.Machine
end

section
/-! The host's duties and the parameters' durations (R146, R184, R186, R192, R193): what an accepted word does to the
error flags and to a frame's commitment. -/

namespace Sys2Proof.Machine

/-! ### The frame protocol -/

theorem faultFree_iff (a : Arch) : a.faultFree = true ↔ a.errIllegal = false ∧ a.errUnarmed = false := by
  simp [Arch.faultFree]

/-- A command records an error only if it is an ENC command and the pin is unarmed (R163). -/
theorem faultFree_transactInstr (p : Params) {i : Instr} {a : Arch} (h : a.faultFree = true)
    (harmed : isEnc i = true → a.pinMode = .serial) : (transactInstr p i a).faultFree = true := by
  obtain ⟨hillegal, hunarmed⟩ := (faultFree_iff a).mp h
  rw [faultFree_iff, transactInstr_errIllegal, transactInstr_errUnarmed]
  refine ⟨hillegal, ?_⟩
  cases henc : isEnc i with
  | true => simp [hunarmed, harmed henc]
  | false => simp [hunarmed]

/-- What the protocol asks of a word, in terms of the pin the word finds and the pin it leaves. -/
theorem keepsProtocol_cons (p : Params) {a : Arch} {w : Word} {ws : List Word}
    (h : keepsProtocol (decide (a.pinMode = .serial)) (w :: ws) = true) :
    ∃ i, decode w = some i ∧ (isEnc i = true → a.pinMode = .serial) ∧
      keepsProtocol (decide ((transactInstr p i a).pinMode = .serial)) ws = true := by
  rw [keepsProtocol] at h
  cases hd : decode w with
  | none => simp [hd] at h
  | some i =>
    refine ⟨i, rfl, ?_⟩
    cases i <;> simpa [hd, isEnc, transactInstr_pinMode] using h

theorem faultFree_foldl_transact (p : Params) (ws : List Word) {a : Arch} (h : a.faultFree = true)
    (hkeeps : keepsProtocol (decide (a.pinMode = .serial)) ws = true) :
    (ws.foldl (transact p) a).faultFree = true := by
  induction ws generalizing a with
  | nil => exact h
  | cons w ws ih =>
    obtain ⟨i, hi, harmed, hrest⟩ := keepsProtocol_cons p hkeeps
    rw [List.foldl_cons, transact_of_decode hi]
    exact ih (faultFree_transactInstr p h harmed) hrest

/-- Settles O57: the run refines the transactions of its accepted words (O51), of which none records an error: the
protocol lets an ENC command find only an armed pin. -/
theorem protocolHostIsFaultFree : Obligations.ProtocolHostIsFaultFree := by
  intro p s t n hfree hclean hrun hkeeps
  rw [cyclesRefineTransactions p s t n hfree hrun]
  exact faultFree_foldl_transact p _ hclean hkeeps

/-! ### The commitment of a frame -/

/-- A parameter set with a running clock and a hold of T_RESET_MIN or more: its hold commits (R146, R192). -/
theorem commits_hold_of_wf {p : Params} (h : p.wf = true) : (Event.hold p.latchHoldCycles).commits p = true := by
  have hhold : p.holdOk = true := (Bool.and_eq_true_iff.mp h).2
  obtain ⟨hclk, hmin⟩ : 1 ≤ p.fClk ∧ p.tResetMin ≤ p.seconds p.latchHoldCycles := by
    simpa [Params.holdOk] using hhold
  have hpos : (0 : ℚ) < p.fClk := by exact_mod_cast hclk
  exact decide_eq_true ((le_div_iff₀ hpos).mp hmin)

/-- Symbols and errors commit nothing. -/
theorem any_commits_recordSymbols (p : Params) (seq : List Byte) (a : Arch) :
    (a.recordSymbols seq).obs.any (Event.commits p) = a.obs.any (Event.commits p) := by
  cases h : a.pinMode with
  | serial => simp [Arch.recordSymbols_serial a seq h, Event.commits]
  | gpio => simp [Arch.recordSymbols_gpio a seq h, Event.commits]

theorem any_commits_transactInstr {p : Params} (hp : p.wf = true) (i : Instr) (a : Arch) :
    (transactInstr p i a).obs.any (Event.commits p) = (a.obs.any (Event.commits p) || decide (i = .latch)) := by
  cases i with
  | writeColor r g b => simp [transactInstr, any_commits_recordSymbols]
  | encodeByte b => simp [transactInstr, any_commits_recordSymbols]
  | latch => simp [transactInstr, commits_hold_of_wf hp]
  | arm => simp [transactInstr, Event.commits]

/-- Settles O56: of the words only a LATCH records a hold, and R146 makes it long enough. -/
theorem onlyLatchCommitsFrame : Obligations.OnlyLatchCommitsFrame := by
  intro p a w hp
  cases hd : decode w with
  | none => simp [transact_of_illegal hd, Event.commits]
  | some i =>
    rw [transact_of_decode hd, any_commits_transactInstr hp]
    simp

/-! ### The reference configuration -/

/-- Settles O58: 2400, 5 and 40 periods of a 24 MHz clock. -/
theorem referenceDurations : Obligations.ReferenceDurations := by
  refine ⟨?_, ?_, ?_⟩ <;> norm_num [Params.seconds, Config.params]

end Sys2Proof.Machine
end

section
/-! The gap between two ENC commands (R185): the levels of the first one run out, or not, while the host delays the
second. -/

namespace Sys2Proof.Machine

/-! ### A quiet serializer -/

theorem Coherent.isQuiet {p : Params} {s : State} (h : Coherent p s) (hready : s.sequencer.busy = false) :
    s.serializer.isQuiet p = true :=
  (isQuiet_iff p _).mpr ⟨h.onlyIdleLeft hready, h.ranges.shBits_le, h.ranges.divCnt_lt⟩

/-- The same state one edge of the serializer later; an empty one has its cycle count cleared (R108). -/
def State.settle (p : Params) (s : State) : State := { s with serializer := serializerEdge p none s.serializer }

section
variable {p : Params} {s : State} (hempty : s.serializer.isEmpty = true)
include hempty

theorem acceptEdge_settle (w : Word) : acceptEdge p w (s.settle p) = acceptEdge p w s := by
  simp [acceptEdge, State.settle, edge_of_isEmpty p hempty, edge_of_isEmpty p (z := { s.serializer with divCnt := 0 })
    hempty]

theorem line_settle : (s.settle p).line = s.line := by
  rw [State.settle, edge_of_isEmpty p hempty]
  rfl

theorem isQuiet_settle (hdiv : 1 ≤ p.div) :
    (s.settle p).serializer.isQuiet p = true ∧ idleDelay p (s.settle p).serializer = 0 := by
  rw [State.settle, edge_of_isEmpty p hempty]
  exact isQuiet_of_isEmpty hdiv hempty

/-- Whatever the cycle count of an empty serializer, the acceptance edge clears it, and no level depends on it. -/
theorem lineTrace_settle {i : Instr} {rest : List HostMove} (hready : s.sequencer.busy = false)
    (hhost : s.host = .send (encode i) :: rest) (n : Nat) : lineTrace p n (s.settle p) = lineTrace p n s := by
  cases n with
  | zero => rfl
  | succ n =>
    rw [lineTrace_succ (stepAt_of_send (s := s.settle p) hready hhost), lineTrace_succ (stepAt_of_send hready hhost),
      acceptEdge_settle hempty, line_settle hempty]

end

/-! ### A host that pauses -/

/-- A host that pauses for `j` cycles and then presents the command `i`. -/
def lateHost (j : Nat) (i : Instr) : List HostMove := List.replicate j HostMove.pause ++ [.send (encode i)]

theorem ports_of_lateHost {s : State} {j : Nat} {i : Instr} (hhost : s.host = lateHost (j + 1) i) :
    s.rst = false ∧ s.accepts = false ∧ hostWaits s.host = lateHost j i := by
  have hcons : s.host = HostMove.pause :: lateHost j i := hhost
  simp [State.accepts, State.rst, State.cmdValid, hostWaits, hcons, HostMove.pause]

/-- The line while the host pauses, until no whole symbol is to come, and then of the command it presents: its symbols
follow the levels played when `j + 3` cycles have gone by, at once if the levels have lasted for longer. -/
theorem Plays.lineTrace_lateHost {p : Params} {s : State} {ls : List Bool} {i : Instr} {j : Nat} (h : Plays p s ls)
    (hcoh : Coherent p s) (henc : isEnc i = true) (hhost : s.host = lateHost j i) (hj : ls.length < 8 * p.div + j)
    (n : Nat) :
    lineTrace p n s = ((ls ++ List.replicate (j + 3 - ls.length) false ++
      wave p (instrSymbols p i)).takeD n false).map s.arch.drives := by
  induction j generalizing s ls n with
  | zero =>
    have hready : s.sequencer.busy = false := by
      rw [Bool.eq_false_iff, Ne, h.busy_iff hcoh]
      omega
    have hquiet := hcoh.isQuiet hready
    have hlow : 3 + idleDelay p s.serializer =
        s.serializer.cyclesLeft p + (0 + 3 - s.serializer.cyclesLeft p) := by
      rw [idleDelay]
      omega
    rw [lineTrace_of_encHost henc hready hquiet (is := []) nofun hhost, List.flatMap_singleton, h.eq_of_ready hready,
      List.length_replicate, List.replicate_append_replicate, hlow]
  | succ j ih =>
    cases n with
    | zero => rfl
    | succ n =>
      obtain ⟨hr, ha, hwaits⟩ := ports_of_lateHost hhost
      obtain ⟨t, hstep, hcoh', h', harch, hhost'⟩ := h.step hcoh hr ha
      have hdiv : 0 < p.div := Nat.zero_lt_of_lt hcoh.ranges.divCnt_lt
      rw [lineTrace_succ hstep, ih h' hcoh' (hhost'.trans hwaits) (by rw [List.length_tail]; omega), harch,
        line_eq_drives, h.serOut_eq hcoh]
      cases ls with
      | nil => rfl
      | cons x ls =>
        rw [List.length_cons, Nat.add_right_comm, Nat.add_sub_add_right]
        rfl

/-! ### The gap -/

/-- R185 from a serializer at rest: the first command is over when its IDLE has stood for one cycle. -/
theorem lineTrace_gap {p : Params} {i i' : Instr} {s : State} {k : Nat} (henc : isEnc i = true)
    (henc' : isEnc i' = true) (hready : s.sequencer.busy = false) (hquiet : s.serializer.isQuiet p = true)
    (hdelay : idleDelay p s.serializer = 0)
    (hhost : s.host = .send (encode i) :: lateHost (encBusyCycles p (instrSymbols p i).length + k) i') (n : Nat) :
    lineTrace p n s = ((List.replicate 3 false ++ wave p (instrSymbols p i) ++ List.replicate (extraLow p k) false ++
      wave p (instrSymbols p i')).takeD n false).map s.arch.drives := by
  cases n with
  | zero => rfl
  | succ n =>
    have hlen := encLevels_length p s.serializer henc
    rw [hdelay] at hlen
    have hgap : encBusyCycles p (instrSymbols p i).length + k + 3 - (encLevels p s.serializer i).length =
        extraLow p k := by
      rw [extraLow]
      omega
    have hlevels := encLevels_cons p s.serializer i
    rw [hdelay] at hlevels
    have hline := (plays_acceptEdge henc hquiet hready).lineTrace_lateHost (coherent_acceptEdge henc hquiet) henc'
      (congrArg List.tail hhost) (by omega) n
    rw [hgap, acceptEdge_encode_arch, drives_transactInstr p henc] at hline
    rw [lineTrace_succ (stepAt_of_send hready hhost), line_of_quiet hquiet, hline, ← hlevels]
    rfl

theorem drives_of_serial {a : Arch} (h : a.pinMode = .serial) : a.drives = id := by
  funext level
  simp [Arch.drives, h]

/-- Settles O40: armed, the line is the serializer's output, and an empty serializer may be taken to be at rest. -/
theorem gapBetweenEncCommands : Obligations.GapBetweenEncCommands := by
  intro p i i' s k n hdiv henc henc' hready hempty hpin hhost
  obtain ⟨hquiet, hdelay⟩ := isQuiet_settle hempty hdiv
  have hline := lineTrace_gap (s := s.settle p) henc henc' hready hquiet hdelay hhost n
  have hdrives : (s.settle p).arch.drives = id := drives_of_serial hpin
  rw [lineTrace_settle hempty hready hhost, hdrives, List.map_id, takeD_eq_take_append] at hline
  exact hline

end Sys2Proof.Machine
end

section
/-! A prompt host's run comes to its end (R108, R109, R141, R192): each word keeps the block busy for a bounded number
of cycles, and after the last one the serializer runs empty. -/

namespace Sys2Proof.Machine

/-! ### A prompt host -/

theorem hostWaits_promptHost (ws : List Word) : hostWaits (promptHost ws) = promptHost ws := by
  cases ws <;> rfl

theorem resetFree_promptHost (ws : List Word) : resetFree (promptHost ws) = true := by
  simp [resetFree, promptHost, HostMove.isReset]

theorem cycles_add {stp : State → Result} {m : Nat} (n : Nat) {s t : State} (h : cycles stp m s = .next t) :
    cycles stp (m + n) s = cycles stp n t := by
  induction m generalizing s with
  | zero =>
    cases h
    rw [Nat.zero_add]
  | succ m ih =>
    obtain ⟨u, hstep, hrest⟩ := cycles_succ_cases h
    rw [Nat.succ_add, ← ih hrest, cycles, hstep, andThen_next]

theorem inv_cycles {p : Params} (hp : p.countersOk = true) {n : Nat} {s t : State} (h : Inv p s)
    (hrun : cycles (stepAt p) n s = .next t) : Inv p t :=
  cycles_induction (I := Inv p) (fun _ _ => inv_stepAt hp) n s t h hrun

theorem Inv.coherent {p : Params} {s : State} (h : Inv p s) : Coherent p s := by
  obtain ⟨hsym, -, hranges, -, hfollows, -⟩ := (inv_iff_parts p s).mp h
  exact ⟨hsym, hranges, hfollows⟩

/-! ### One word -/

/-- An ENC command completes when no whole symbol is left of the levels it plays (R109). -/
theorem Plays.exists_ready {p : Params} {s : State} {ls : List Bool} (h : Plays p s ls) (hcoh : Coherent p s)
    {ws : List Word} (hhost : s.host = promptHost ws) :
    ∃ n t, n ≤ ls.length + 1 - 8 * p.div ∧ cycles (stepAt p) n s = .next t ∧ t.sequencer.busy = false ∧
      t.host = promptHost ws := by
  induction ls generalizing s with
  | nil =>
    have hready : s.sequencer.busy = false := by
      have hdiv : 0 < p.div := Nat.zero_lt_of_lt hcoh.ranges.divCnt_lt
      rw [Bool.eq_false_iff, Ne, h.busy_iff hcoh, List.length_nil]
      omega
    exact ⟨0, s, Nat.zero_le _, rfl, hready, hhost⟩
  | cons x ls ih =>
    cases hbusy : s.sequencer.busy with
    | false => exact ⟨0, s, Nat.zero_le _, rfl, hbusy, hhost⟩
    | true =>
      have hlen := (h.busy_iff hcoh).mp hbusy
      have hfree : resetFree s.host = true := hhost ▸ resetFree_promptHost ws
      obtain ⟨u, hstep, hcoh', h', -, hhost'⟩ :=
        h.step hcoh (rst_of_resetFree hfree) (accepts_false_of_busy hbusy)
      rw [hhost, hostWaits_promptHost] at hhost'
      obtain ⟨n, t, hn, hrun, ht⟩ := ih h' hcoh' hhost'
      rw [List.length_cons] at hlen
      exact ⟨n + 1, t, by rw [List.length_cons]; omega, cycles_succ hstep hrun, ht⟩

/-- R109's duration is longest for a WRITE_COLOR. -/
theorem encBusyCycles_le (p : Params) (i : Instr) : encBusyCycles p (instrSymbols p i).length ≤ 208 * p.div + 3 := by
  cases i with
  | writeColor r g b => exact Nat.le_refl _
  | encodeByte b => show (9 - 1) * 8 * p.div + 3 ≤ _; omega
  | latch | arm => show (0 - 1) * 8 * p.div + 3 ≤ _; omega

section
variable {p : Params} {s : State} {ws : List Word} (hinv : Inv p s) (hready : s.sequencer.busy = false)
include hready

theorem stepAt_of_promptHost {w : Word} (hhost : s.host = promptHost (w :: ws)) :
    stepAt p s = .next (acceptEdge p w s) := by
  obtain ⟨hr, hvalid, hdata⟩ := ports_of_send hhost
  rw [← hdata]
  exact stepAt_of_accepts p ((accepts_iff s).mpr ⟨hr, hvalid, hready⟩)

/-- A word that starts nothing is over at its acceptance (R148, R162). -/
theorem exists_ready_of_no_start {w : Word} (hhost : s.host = promptHost (w :: ws))
    (hstart : wordStart p w s.sequencer = s.sequencer) :
    ∃ t, cycles (stepAt p) 1 s = .next t ∧ t.sequencer.busy = false ∧ t.host = promptHost ws :=
  ⟨_, cycles_succ (stepAt_of_promptHost hready hhost) rfl, (congrArg Sequencer.busy hstart).trans hready,
    congrArg List.tail hhost⟩

include hinv

/-- A ready block takes an ENC command, and completes it after R109's cycles and those of an IDLE before it. -/
theorem exists_ready_of_enc {i : Instr} (henc : isEnc i = true) (hhost : s.host = promptHost (encode i :: ws)) :
    ∃ n t, n ≤ 216 * p.div + 4 ∧ cycles (stepAt p) n s = .next t ∧ t.sequencer.busy = false ∧
      t.host = promptHost ws := by
  have hcoh := hinv.coherent
  have hquiet := hcoh.isQuiet hready
  obtain ⟨n, t, hn, hrun, ht⟩ := (plays_acceptEdge henc hquiet hready).exists_ready (coherent_acceptEdge henc hquiet)
    (congrArg List.tail hhost)
  refine ⟨n + 1, t, ?_, cycles_succ (stepAt_of_promptHost hready hhost) hrun, ht⟩
  have hlen := encLevels_length p s.serializer henc
  have hbusy := encBusyCycles_le p i
  have hleft := cyclesLeft_le (p := p) hinv.shBits_le
  rw [idleDelay] at hlen
  omega

/-- A ready block takes the word presented, and is ready again within a bound. -/
theorem exists_ready_of_word (hp : p.countersOk = true) {w : Word} (hhost : s.host = promptHost (w :: ws)) :
    ∃ n t, n ≤ 216 * p.div + p.latchHoldCycles + 4 ∧ cycles (stepAt p) n s = .next t ∧
      t.sequencer.busy = false ∧ t.host = promptHost ws := by
  cases hd : decode w with
  | none =>
    obtain ⟨t, ht⟩ := exists_ready_of_no_start hready hhost (wordStart_of_illegal hd)
    exact ⟨1, t, by omega, ht⟩
  | some i =>
    cases henc : isEnc i with
    | true =>
      obtain rfl := encodeDecodeRoundTrip w i hd
      obtain ⟨n, t, hn, ht⟩ := exists_ready_of_enc hinv hready henc hhost
      exact ⟨n, t, by omega, ht⟩
    | false =>
      cases i with
      | writeColor | encodeByte => cases henc
      | arm =>
        obtain ⟨t, ht⟩ := exists_ready_of_no_start hready hhost (wordStart_of_decode hd)
        exact ⟨1, t, by omega, ht⟩
      | latch =>
        obtain rfl := encodeDecodeRoundTrip w _ hd
        obtain ⟨t, hrun, hdone, -, -, hwaits⟩ := cycles_of_latch (ser := serializerEdge p)
          ((countersOk_iff p).mp hp).2 hready hhost (resetFree_promptHost ws) (Nat.zero_add _)
        exact ⟨p.latchHoldCycles + 1, t, by omega, hrun, hdone.busy,
          hwaits.trans (Function.iterate_fixed (hostWaits_promptHost ws) _)⟩

end

/-! ### The run -/

/-- With nothing more to do a ready block's serializer runs empty (R112). -/
theorem exists_runOver_of_quiet_host {p : Params} {s : State} (hcoh : Coherent p s)
    (hready : s.sequencer.busy = false) (hhost : s.host = []) :
    ∃ t, cycles (stepAt p) (s.serializer.cyclesLeft p) s = .next t ∧ t.runOver = true := by
  have hempty := (hcoh.onlyIdleLeft hready).1
  generalize hc : s.serializer.cyclesLeft p = c
  induction c generalizing s with
  | zero =>
    have hbits := (cyclesLeft_eq_zero_iff hcoh.ranges.divCnt_lt).mp hc
    exact ⟨s, rfl, (runOver_iff s).mpr ⟨hhost ▸ rfl, hready, hempty, hbits⟩⟩
  | succ c ih =>
    obtain ⟨hr, ha⟩ := ports_of_quiet_host hhost
    have hready' : (clockEdge (serializerEdge p) (txWrite p s) s).sequencer.busy = false := by
      rw [clockEdge_sequencer, sequencerEdge_idle hready, hready]
    have hleft := cyclesLeft_of_empty_buffer hcoh rfl hempty
    obtain ⟨t, hrun, hover⟩ := ih hcoh.clockEdge hready' (by rw [clockEdge_host, hhost]; rfl)
      (hcoh.clockEdge.onlyIdleLeft hready').1 (by rw [hleft, hc, Nat.add_sub_cancel])
    exact ⟨t, cycles_succ (stepAt_of_symbolsOk hcoh.symbols hr ha) hrun, hover⟩

theorem exists_runOver_of_promptHost {p : Params} (hp : p.countersOk = true) (ws : List Word) {s : State}
    (hinv : Inv p s) (hready : s.sequencer.busy = false) (hhost : s.host = promptHost ws) :
    ∃ n t, n ≤ ws.length * (216 * p.div + p.latchHoldCycles + 4) + 8 * p.div ∧
      cycles (stepAt p) n s = .next t ∧ t.runOver = true := by
  induction ws generalizing s with
  | nil =>
    obtain ⟨t, ht⟩ := exists_runOver_of_quiet_host hinv.coherent hready hhost
    exact ⟨_, t, (cyclesLeft_le hinv.shBits_le).trans (Nat.le_add_left ..), ht⟩
  | cons w ws ih =>
    obtain ⟨m, u, hm, hword, hready', hhost'⟩ := exists_ready_of_word hinv hready hp hhost
    obtain ⟨n, t, hn, hrest, hover⟩ := ih (inv_cycles hp hinv hword) hready' hhost'
    refine ⟨m + n, t, ?_, (cycles_add n hword).trans hrest, hover⟩
    rw [List.length_cons, Nat.succ_mul]
    omega

/-- Settles O54: at reset the block is ready, and meets the invariant. -/
theorem promptRunsEnd : Obligations.PromptRunsEnd := by
  intro p ws hp
  exact exists_runOver_of_promptHost hp ws (resetMeetsInvariant p _ hp) rfl rfl

end Sys2Proof.Machine
end
